-- ==== Sys2Proof/Word.lean ====
section
/-! DEFINITION. The word types of the Z85 CORE: a byte (a raw byte or a character, 00_scope.md R4, R5)
and the 32-bit word of the register data port (10_state.md R25). -/

namespace Sys2Proof

/-- A raw byte or a character: 8 bits (`CHAR_W`, R4). -/
abbrev Byte := BitVec 8

/-- The register port's data word: 32 bits, bit 0 least significant (R25, R35). -/
abbrev Word := BitVec 32

end Sys2Proof
end

