-- ==== Sys2Proof/Config.lean ====
section
/-! DEFINITION. The parameters of the CORE (00_scope.md R3, R4). The two ROMs are constants too (10_state.md
R11); their contents stand in Machine/Rom.lean. `HOST_BUS` and `T_STEP` are OPEN and no rule depends on
them (R4). -/

namespace Sys2Proof.Config

/-- `AW`, the address width of the input buffer, at the spec's stated default (R4). DESIGN CHOICE, unsafe
for a CORE built with another `AW` (log 1). -/
abbrev AW : Nat := 16

/-- `ACC_W`, the width of the decoder's accumulator (R4, R12). -/
abbrev accWidth : Nat := 33

/-- The number of cells of `IBUF`, `2^AW` (R22). -/
abbrev ibufSize : Nat := 2 ^ AW

/-- The number of cells of `OBUF`, `2^(AW+1)` (R22). -/
abbrev obufSize : Nat := 2 ^ (AW + 1)

end Sys2Proof.Config

namespace Sys2Proof

/-- An `IBUF` address; also the width of `LEN`, `IPOS` and `ERRIDX` (R4). -/
abbrev IAddr := BitVec Config.AW

/-- An `OBUF` address; also the width of `OLEN` and `OPOS` (R4). -/
abbrev OAddr := BitVec (Config.AW + 1)

/-- The decoder's accumulator (R12). -/
abbrev Acc := BitVec Config.accWidth

end Sys2Proof
end

