-- ==== Sys2Proof/Machine/Rom.lean ====
section
/-! DEFINITION. The two ROMs (10_state.md R11, R21): `ENC_ROM`, the alphabet (30_encoding.md R50), and
`DEC_ROM`, its inverse with sentinel 0 (R53), each transcribed from its own hexadecimal table of the spec.
UNVERIFIED, unsafe: 77 of the 85 alphabet entries rest on the spec author's general knowledge (R51, G1;
log 9). -/

namespace Sys2Proof.Machine

/-- `ENC_ROM`, digits 0 to 29, ten a row as R50 lists them. -/
def encRomLow : List Byte :=
  [0x30, 0x31, 0x32, 0x33, 0x34, 0x35, 0x36, 0x37, 0x38, 0x39,
   0x61, 0x62, 0x63, 0x64, 0x65, 0x66, 0x67, 0x68, 0x69, 0x6A,
   0x6B, 0x6C, 0x6D, 0x6E, 0x6F, 0x70, 0x71, 0x72, 0x73, 0x74]

/-- `ENC_ROM`, digits 30 to 59. -/
def encRomMiddle : List Byte :=
  [0x75, 0x76, 0x77, 0x78, 0x79, 0x7A, 0x41, 0x42, 0x43, 0x44,
   0x45, 0x46, 0x47, 0x48, 0x49, 0x4A, 0x4B, 0x4C, 0x4D, 0x4E,
   0x4F, 0x50, 0x51, 0x52, 0x53, 0x54, 0x55, 0x56, 0x57, 0x58]

/-- `ENC_ROM`, digits 60 to 84. -/
def encRomHigh : List Byte :=
  [0x59, 0x5A, 0x2E, 0x2D, 0x3A, 0x2B, 0x3D, 0x5E, 0x21, 0x2F,
   0x2A, 0x3F, 0x26, 0x3C, 0x3E, 0x28, 0x29, 0x5B, 0x5D, 0x7B,
   0x7D, 0x40, 0x25, 0x24, 0x23]

/-- `ENC_ROM`: the 85 characters in digit order (R50). -/
def encRomTable : List Byte := encRomLow ++ encRomMiddle ++ encRomHigh

theorem encRomTable_length : encRomTable.length = 85 := rfl

/-- `ENC_ROM[d]`: there are only the addresses 0 to 84 (R21). -/
def encRom (d : Fin 85) : Byte := encRomTable.get (d.cast encRomTable_length.symm)

/-- `DEC_ROM`, indices 0 to 31 (characters 0x20 to 0x3F), eight a row as R53 lists them. -/
def decRomLow : List Byte :=
  [0x00, 0x44, 0x00, 0x54, 0x53, 0x52, 0x48, 0x00,
   0x4B, 0x4C, 0x46, 0x41, 0x00, 0x3F, 0x3E, 0x45,
   0x00, 0x01, 0x02, 0x03, 0x04, 0x05, 0x06, 0x07,
   0x08, 0x09, 0x40, 0x00, 0x49, 0x42, 0x4A, 0x47]

/-- `DEC_ROM`, indices 32 to 63 (characters 0x40 to 0x5F). -/
def decRomMiddle : List Byte :=
  [0x51, 0x24, 0x25, 0x26, 0x27, 0x28, 0x29, 0x2A,
   0x2B, 0x2C, 0x2D, 0x2E, 0x2F, 0x30, 0x31, 0x32,
   0x33, 0x34, 0x35, 0x36, 0x37, 0x38, 0x39, 0x3A,
   0x3B, 0x3C, 0x3D, 0x4D, 0x00, 0x4E, 0x43, 0x00]

/-- `DEC_ROM`, indices 64 to 95 (characters 0x60 to 0x7F). -/
def decRomHigh : List Byte :=
  [0x00, 0x0A, 0x0B, 0x0C, 0x0D, 0x0E, 0x0F, 0x10,
   0x11, 0x12, 0x13, 0x14, 0x15, 0x16, 0x17, 0x18,
   0x19, 0x1A, 0x1B, 0x1C, 0x1D, 0x1E, 0x1F, 0x20,
   0x21, 0x22, 0x23, 0x4F, 0x00, 0x50, 0x00, 0x00]

/-- `DEC_ROM`: 96 entries, index `c - 0x20` (R53). -/
def decRomTable : List Byte := decRomLow ++ decRomMiddle ++ decRomHigh

theorem decRomTable_length : decRomTable.length = 96 := rfl

/-- `DEC_ROM[j]`: there are only the addresses 0 to 95 (R21). -/
def decRom (j : Fin 96) : Byte := decRomTable.get (j.cast decRomTable_length.symm)

end Sys2Proof.Machine
end

