-- ==== Sys2Proof/Syntax.lean ====
section
/-! DEFINITION. The syntax of everything that drives the CORE: the two commands (30_encoding.md R61), the
registers (10_state.md R14 to R19), the host's transactions (42_sequencer_host.md R96), the events of the
one total order (R95), the two group formats (R57, R58) and the host's script lines (R66). -/

namespace Sys2Proof

/-- The two commands of spec/opcode_table.json (R61). Their operands are implicit: `LEN` and `IBUF`
(R75, R89). -/
inductive Instr where
  | encode
  | decode
  deriving DecidableEq, Repr

/-- The eight register numbers (R14 to R19, R38). -/
inductive Reg where
  | cmd
  | len
  | status
  | olen
  | erridx
  | reserved5
  | reserved6
  | reserved7
  deriving DecidableEq, Repr

/-- The host's transactions (R96), each one atomic access through one of the three ports (R25). The
addresses are as wide as their port, so none is out of range (R31, U9). -/
inductive Txn where
  /-- `WR r, v`: register write. -/
  | wr (r : Reg) (v : Word)
  /-- `RD r`: register read. -/
  | rd (r : Reg)
  /-- `WB a, v`: `IBUF` byte write. -/
  | wb (a : IAddr) (v : Byte)
  /-- `RI a`: `IBUF` byte read. -/
  | ri (a : IAddr)
  /-- `RB a`: `OBUF` byte read. -/
  | rb (a : OAddr)
  deriving DecidableEq, Repr

/-- One entry of the total order of R40 and R95. -/
inductive Event where
  /-- The host performs a transaction. -/
  | host (t : Txn)
  /-- SEQ is given a turn: one step if it has one enabled (R98). -/
  | seq
  /-- The reset event (R135). -/
  | reset
  /-- The host's polling loop `WAIT` (R66; log 8). -/
  | wait
  deriving DecidableEq, Repr

/-- A raw group: 4 bytes at consecutive addresses, `b0` at the lowest (R57). -/
structure RawGroup where
  b0 : Byte
  b1 : Byte
  b2 : Byte
  b3 : Byte
  deriving DecidableEq, Repr

/-- A text group: 5 characters at consecutive addresses, `c0` at the lowest (R58). -/
structure TextGroup where
  c0 : Byte
  c1 : Byte
  c2 : Byte
  c3 : Byte
  c4 : Byte
  deriving DecidableEq, Repr

/-- A line of a host script in the notation of R66, with the numbers as written; `LOADS` holds the
characters of its text. -/
inductive Line where
  | wr (r v : Nat)
  | rd (r : Nat)
  | wb (a v : Nat)
  | ri (a : Nat)
  | rb (a : Nat)
  | reset
  | load (a : Nat) (xs : List Nat)
  | loads (a : Nat) (text : List Char)
  | encode (n : Nat)
  | decode (n : Nat)
  | wait
  | dump (n : Nat)
  deriving DecidableEq, Repr

end Sys2Proof
end

