-- ==== Sys2Proof/WellFormed.lean ====
section
/-! DEFINITION. Well-formedness. A command has no operand in its word (30_encoding.md R60), so every command
is well formed. A script line is well formed when each number it writes fits the port that carries it
(10_state.md R25) and, for a length, the `LEN` register (70_reset_and_hazards.md R138 item 4, R142). -/

namespace Sys2Proof

/-- A command carries no operand (R60), so nothing about it can be ill formed. -/
def Instr.wf : Instr → Bool
  | .encode => true
  | .decode => true

/-- Every number of a list is a byte. -/
def bytesFit (xs : List Nat) : Bool := xs.all (· < 256)

/-- The numbers of a script line fit the ports and the length register. -/
def Line.wf : Line → Bool
  | .wr r v => r < 8 && v < 2 ^ 32
  | .rd r => r < 8
  | .wb a v => a < Config.ibufSize && v < 256
  | .ri a => a < Config.ibufSize
  | .rb a => a < Config.obufSize
  | .reset => true
  | .load a xs => a + xs.length ≤ Config.ibufSize && bytesFit xs
  | .loads a text => a + text.length ≤ Config.ibufSize && bytesFit (text.map Char.toNat)
  | .encode n => n < Config.ibufSize
  | .decode n => n < Config.ibufSize
  | .wait => true
  | .dump n => n ≤ Config.obufSize

end Sys2Proof
end

