-- ==== Sys2Proof/Decode.lean ====
section
/-! DEFINITION. Decoding of the command word and of the ports' signals, and the encoder. There is one
command format, one 32-bit register write (30_encoding.md R60), and no illegal command word (R64). -/

namespace Sys2Proof

/-- Why a sequence of words is no command. -/
inductive DecodeError where
  /-- There is no word to read. -/
  | noCommandWord
  deriving DecidableEq, Repr

/-- The command a word written to `CMD` selects: bit 0, `OP`; bits 31:1 are ignored (R14, R60, R61). -/
def decodeCommand (v : Word) : Instr :=
  if v.getLsbD 0 then .decode else .encode

/-- Decode the first word of a sequence of command words, and return the rest. -/
def decode : List Word → Except DecodeError (Instr × List Word)
  | [] => .error .noCommandWord
  | v :: rest => .ok (decodeCommand v, rest)

/-- The value of the `OP` bit (R61). -/
def Instr.opBit : Instr → BitVec 1
  | .encode => 0#1
  | .decode => 1#1

/-- The command word of a command, with any contents of the ignored bits 31:1 (R60). -/
def encodeCommand (ignored : BitVec 31) (i : Instr) : Word :=
  ignored ++ i.opBit

/-- The words of a command: the opcode table's `match` value, ignored bits zero (R61). -/
def encode (i : Instr) : List Word :=
  [encodeCommand 0#31 i]

/-- What the decoder reads from an opcode-table row's `nbits` bits `w`. The command is one parallel
32-bit write (R35, R60), so its bit `k` is bit `k` of `w`, and the bits from `nbits` up are 0 (log 13). -/
def decodeTableWord (nbits w : Nat) : Option Instr :=
  if nbits ≤ 32 ∧ w < 2 ^ nbits then some (decodeCommand (BitVec.ofNat 32 w)) else none

/-- The register a register number names (R14 to R19, R38). -/
def decodeReg (n : BitVec 3) : Reg :=
  match n.toNat with
  | 0 => .cmd
  | 1 => .len
  | 2 => .status
  | 3 => .olen
  | 4 => .erridx
  | 5 => .reserved5
  | 6 => .reserved6
  | _ => .reserved7

/-- The number of a register (R38). -/
def Reg.num : Reg → BitVec 3
  | .cmd => 0#3
  | .len => 1#3
  | .status => 2#3
  | .olen => 3#3
  | .erridx => 4#3
  | .reserved5 => 5#3
  | .reserved6 => 6#3
  | .reserved7 => 7#3

/-- The transaction the register port's signals `reg_num`, `reg_we`, `reg_wdata` carry (R25). -/
def decodeRegPort (num : BitVec 3) (we : Bool) (wdata : Word) : Txn :=
  if we then .wr (decodeReg num) wdata else .rd (decodeReg num)

/-- The transaction the input buffer port's signals `ibuf_addr`, `ibuf_we`, `ibuf_wdata` carry (R25). -/
def decodeIbufPort (addr : IAddr) (we : Bool) (wdata : Byte) : Txn :=
  if we then .wb addr wdata else .ri addr

/-- The transaction the output buffer port's signal `obuf_addr` carries: it has no write path (R25). -/
def decodeObufPort (addr : OAddr) : Txn :=
  .rb addr

end Sys2Proof
end

