-- ==== Sys2Proof/Machine/State.lean ====
section
/-! DEFINITION. The state of the CORE (10_state.md R10) as plain data, with the host's script and the values
returned to the host beside it, the reasons a step can stop, and the state after reset (R24). -/

namespace Sys2Proof.Machine

/-- The four values of `STATUS.ERR` (60_exceptions.md R115). -/
inductive ErrKind where
  /-- 0: no error. -/
  | noError
  /-- 1: `InvalidLength` (R116). -/
  | invalidLength
  /-- 2: `InvalidCharacter` (R117). -/
  | invalidCharacter
  /-- 3: `ValueOverflow` (R119). -/
  | valueOverflow
  deriving DecidableEq, Repr

/-- What a read transaction returned on its port (R25, R96). -/
inductive Reply where
  /-- `reg_rdata`. -/
  | reg (v : Word)
  /-- `ibuf_rdata`. -/
  | ibuf (b : Byte)
  /-- `obuf_rdata`. -/
  | obuf (b : Byte)
  deriving DecidableEq, Repr

/-- A buffer: its written cells as (address, byte) pairs, addresses strictly rising. An address that is
not listed has not been written since reset and has NO value (20_memory.md R45; log 6). -/
abbrev Memory := List Host.Cell

/-- The complete state: the components of R10, and the model's own `script` and `replies`. -/
structure State where
  /-- `OP`: the operation of the current or last command (R14). -/
  op : Instr
  /-- `LEN`: the input length (R15). -/
  len : IAddr
  /-- `STATUS.BUSY` (R16, R20). -/
  busy : Bool
  /-- `STATUS.DONE` (R16, R20). -/
  done : Bool
  /-- `STATUS.ERR` (R16, R20). -/
  err : ErrKind
  /-- `OLEN`: the result length (R17). -/
  olen : OAddr
  /-- `ERRIDX`: the error index (R18). -/
  erridx : IAddr
  /-- `IPOS`: the input index of the next group (R13). -/
  ipos : IAddr
  /-- `OPOS`: the output index of the next group's result (R13). -/
  opos : OAddr
  /-- `ACC`: the decoder's accumulator (R12). -/
  acc : Acc
  /-- `IBUF` (R22). -/
  ibuf : Memory
  /-- `OBUF` (R22). -/
  obuf : Memory
  /-- The model's own: the events still to come, in their total order (R40, R95). DESIGN CHOICE (log 2). -/
  script : List Event
  /-- The model's own: the values returned to the host, newest first (R96). DESIGN CHOICE (log 5). -/
  replies : List Reply
  deriving DecidableEq, Repr

/-- The machine itself never faults (R128). These reasons are raised only in states that the spec calls
unreachable and that `Safety.Inv` excludes; stopping there is safe (log 7). -/
inductive Fault where
  /-- Raised by a sequencer step with `IPOS > LEN`, for which R98 gives no step. Safe. -/
  | iposPastLen
  /-- Raised by a group step whose group leaves `IBUF` (R31: never formed). Safe. -/
  | ibufRange
  /-- Raised by a group step whose result leaves `OBUF` (R31: never formed). Safe. -/
  | obufRange
  deriving DecidableEq, Repr

/-- What the model gives no meaning to. -/
inductive Refusal where
  /-- Raised by an arm of `exec` whose command has no meaning yet: no arm is left so. Safe. -/
  | notModelled (mnemonic : String)
  /-- Raised by a group step or a host read `RI` that reads an `IBUF` cell not written since reset (R45,
  R144, U1). Safe. -/
  | unwrittenIbuf (addr : Nat)
  /-- Raised by a host read `RB` of an `OBUF` cell not written since reset (R45, U1). Safe. -/
  | unwrittenObuf (addr : Nat)
  deriving DecidableEq, Repr

/-- A reason to stop, of either sort. -/
inductive Stop where
  | fault (r : Fault)
  | refused (r : Refusal)
  deriving DecidableEq, Repr

/-- The state after reset: every register 0 and no buffer cell with a value (R24, R135). The script and
the replies are empty: DESIGN CHOICE (log 4, 5). -/
def State.reset : State where
  op := .encode
  len := 0
  busy := false
  done := false
  err := .noError
  olen := 0
  erridx := 0
  ipos := 0
  opos := 0
  acc := 0
  ibuf := []
  obuf := []
  script := []
  replies := []

end Sys2Proof.Machine
end

