-- ==== Sys2Proof/Machine/Ops.lean ====
section
/-! DEFINITION. The named operations over buffers and registers, and the entry into an error (60_exceptions.md
R118) with the clearing that the next start does (42_sequencer_host.md R97, R124). -/

namespace Sys2Proof.Machine

open Host (Outcome)

/-- The byte at an address, if it has been written since reset (20_memory.md R45). -/
def Memory.read : Memory → Nat → Option Byte
  | [], _ => none
  | (a', b) :: rest, a => if a = a' then some b else Memory.read rest a

/-- Store a byte, keeping the addresses strictly rising. -/
def Memory.write : Memory → Nat → Byte → Memory
  | [], a, v => [(a, v)]
  | (a', b) :: rest, a, v =>
    if a < a' then (a, v) :: (a', b) :: rest
    else if a = a' then (a, v) :: rest
    else (a', b) :: Memory.write rest a v

/-- The `n` bytes from address `a` up, first byte first (00_scope.md R6), if all have been written. -/
def Memory.readN (m : Memory) (a : Nat) : Nat → Option (List Byte)
  | 0 => some []
  | n + 1 =>
    match m.read a, Memory.readN m (a + 1) n with
    | some b, some bs => some (b :: bs)
    | _, _ => none

/-- Store bytes at consecutive addresses from `a` up. -/
def Memory.writeN (m : Memory) (a : Nat) : List Byte → Memory
  | [] => m
  | b :: bs => Memory.writeN (m.write a b) (a + 1) bs

/-- The addresses are strictly rising, at least `lo` and below `size`. -/
def Memory.rising (lo size : Nat) : Memory → Bool
  | [] => true
  | (a, _) :: rest => lo ≤ a && a < size && Memory.rising (a + 1) size rest

/-- The canonical form of a buffer of `size` cells. An unlisted address has no value, so no entry can
equal what an unlisted address reads as. -/
def Memory.wf (size : Nat) (m : Memory) : Bool := Memory.rising 0 size m

/-- Go on with the state, or stop for the reason given. -/
def toOutcome : Except Stop State → Outcome State Fault Refusal
  | .ok s => .next s
  | .error (.fault r) => .fault r
  | .error (.refused r) => .refused r

/-- A read transaction returns a value to the host (R96). -/
def State.reply (s : State) (r : Reply) : State := { s with replies := r :: s.replies }

/-- `raise K(idx)`: end the current operation with an error (R118). No state is saved and control goes
nowhere. -/
def raise (k : ErrKind) (idx : IAddr) (s : State) : State :=
  { s with err := k, erridx := idx, olen := 0, busy := false, done := true }

/-- What every start clears (R97). This is all the return from an error there is (R124). -/
def clearForStart (s : State) : State :=
  { s with err := .noError, erridx := 0, olen := 0, ipos := 0, opos := 0, acc := 0, done := false }

/-- The reset event: every register 0, every buffer cell unspecified (70_reset_and_hazards.md R135, R136).
The host's script and the values it has read are not the CORE's and stay (log 15). -/
def resetEvent (s : State) : State :=
  { State.reset with script := s.script, replies := s.replies }

end Sys2Proof.Machine
end

