-- ==== Sys2Proof/Machine/Operands.lean ====
section
/-! DEFINITION. The operands of the two commands: the group sizes, the group reads from `IBUF` at `IPOS`, the
group write to `OBUF` at `OPOS` (42_sequencer_host.md R103), and the order of a group's bytes in memory
(30_encoding.md R57, R58). -/

namespace Sys2Proof

/-- `G`, the input group size (R26, R97): 4 bytes or 5 characters (00_scope.md R3). -/
def Instr.groupIn : Instr → Nat
  | .encode => 4
  | .decode => 5

/-- `H`, the output group size (R26). -/
def Instr.groupOut : Instr → Nat
  | .encode => 5
  | .decode => 4

/-- The bytes of a raw group, lowest address first (R57). -/
def RawGroup.bytes (g : RawGroup) : List Byte := [g.b0, g.b1, g.b2, g.b3]

/-- The characters of a text group, lowest address first (R58). -/
def TextGroup.bytes (g : TextGroup) : List Byte := [g.c0, g.c1, g.c2, g.c3, g.c4]

end Sys2Proof

namespace Sys2Proof.Machine

/-- SEQ reads one byte of `IBUF` (R37, R103). -/
def readIbuf (s : State) (a : Nat) : Except Stop Byte :=
  if a < Config.ibufSize then
    match s.ibuf.read a with
    | some b => .ok b
    | none => .error (.refused (.unwrittenIbuf a))
  else .error (.fault .ibufRange)

/-- The four reads of an encode group step, at `IPOS + 0` to `IPOS + 3` (R99). -/
def readRawGroup (s : State) : Except Stop RawGroup := do
  let b0 ← readIbuf s (s.ipos.toNat + 0)
  let b1 ← readIbuf s (s.ipos.toNat + 1)
  let b2 ← readIbuf s (s.ipos.toNat + 2)
  let b3 ← readIbuf s (s.ipos.toNat + 3)
  return ⟨b0, b1, b2, b3⟩

/-- The five reads of a decode group step, at `IPOS + 0` to `IPOS + 4` (R100). -/
def readTextGroup (s : State) : Except Stop TextGroup := do
  let c0 ← readIbuf s (s.ipos.toNat + 0)
  let c1 ← readIbuf s (s.ipos.toNat + 1)
  let c2 ← readIbuf s (s.ipos.toNat + 2)
  let c3 ← readIbuf s (s.ipos.toNat + 3)
  let c4 ← readIbuf s (s.ipos.toNat + 4)
  return ⟨c0, c1, c2, c3, c4⟩

/-- The writes of a group step, at `OPOS + 0` and up (R99, R100). -/
def writeObufGroup (s : State) (bs : List Byte) : Except Stop State :=
  if s.opos.toNat + bs.length ≤ Config.obufSize then
    .ok { s with obuf := s.obuf.writeN s.opos.toNat bs }
  else .error (.fault .obufRange)

/-- The input message of an operation, `IBUF[0 .. LEN-1]` (20_memory.md R32), if all of it has been
written since reset. -/
def State.message (s : State) : Option (List Byte) := s.ibuf.readN 0 s.len.toNat

end Sys2Proof.Machine
end

