-- ==== Sys2Proof/Machine/Flags.lean ====
section
/-! DEFINITION. The status items (10_state.md R16, R20), the length check that decides between starting and
`InvalidLength` (60_exceptions.md R116), and the value each register reads as (R14 to R19). -/

namespace Sys2Proof.Machine

/-- The numeric code of an error kind (R115). -/
def ErrKind.code : ErrKind → BitVec 2
  | .noError => 0#2
  | .invalidLength => 1#2
  | .invalidCharacter => 2#2
  | .valueOverflow => 3#2

/-- `STATUS` as read: 28 zero bits, `ERR`, `DONE`, `BUSY` (R16). -/
def statusWord (s : State) : Word :=
  0#28 ++ s.err.code ++ BitVec.ofBool s.done ++ BitVec.ofBool s.busy

/-- The length check: `LEN mod G = 0` (R36, R116). -/
def lengthLegal (i : Instr) (len : IAddr) : Bool := len.toNat % i.groupIn == 0

/-- The value a register read returns, zero-extended to 32 bits (R14 to R19, R96). -/
def regRead (s : State) : Reg → Word
  | .cmd => s.op.opBit.setWidth 32
  | .len => s.len.setWidth 32
  | .status => statusWord s
  | .olen => s.olen.setWidth 32
  | .erridx => s.erridx.setWidth 32
  | .reserved5 => 0
  | .reserved6 => 0
  | .reserved7 => 0

end Sys2Proof.Machine
end

