-- ==== Sys2Proof/Machine/Sequencer.lean ====
section
/-! DEFINITION. What both commands share of the sequencer: the start (42_sequencer_host.md R97), the choice of
a step (R98) and the finish step (R101). -/

namespace Sys2Proof.Machine

open Host (Outcome)

/-- An accepted start (R97): latch `OP`, clear what a start clears, check the length, and either run or
end at once with `InvalidLength`. -/
def start (i : Instr) (s : State) : State :=
  let t := { clearForStart s with op := i }
  if lengthLegal i s.len then { t with busy := true } else raise .invalidLength 0 t

/-- The finish step (R101). -/
def finish (s : State) : State :=
  { s with olen := s.opos, busy := false, done := true }

/-- The choice of R98 in a running operation whose group step is `group`. -/
def advance (group : State → Outcome State Fault Refusal) (s : State) : Outcome State Fault Refusal :=
  if s.ipos = s.len then .next (finish s)
  else if s.ipos < s.len then group s
  else .fault .iposPastLen

end Sys2Proof.Machine
end

