-- ==== Sys2Proof/Machine/Encoder.lean ====
section
/-! DEFINITION. The encoder: the group datapath `ENC_BLOCK` (40_encoder.md R70 to R72), the message function
`z85_encode` (R74), the encode group step (42_sequencer_host.md R99) and the command `ENCODE` (R75). -/

namespace Sys2Proof.Machine

open Host (Outcome)

/-- The errors of the two message functions (00_scope.md R8). -/
inductive Z85Error where
  | invalidLength
  | invalidCharacter (idx : Nat)
  | valueOverflow (idx : Nat)
  deriving DecidableEq, Repr

/-- The group value `V` of a raw group, first byte most significant (R33, R70). -/
def groupValue (g : RawGroup) : BitVec 32 :=
  BitVec.ofNat 32 (((g.b0.toNat * 256 + g.b1.toNat) * 256 + g.b2.toNat) * 256 + g.b3.toNat)

/-- The base-85 digit of `V` at a divisor: `(V div divisor) mod 85` (R71). -/
def digitAt (v : BitVec 32) (divisor : Nat) : Fin 85 :=
  ⟨v.toNat / divisor % 85, Nat.mod_lt _ (by decide)⟩

/-- `ENC_BLOCK`: five digits, most significant first, each through `ENC_ROM` (R71, R72). -/
def encBlock (g : RawGroup) : TextGroup where
  c0 := encRom (digitAt (groupValue g) (85 ^ 4))
  c1 := encRom (digitAt (groupValue g) (85 ^ 3))
  c2 := encRom (digitAt (groupValue g) (85 ^ 2))
  c3 := encRom (digitAt (groupValue g) (85 ^ 1))
  c4 := encRom (digitAt (groupValue g) (85 ^ 0))

/-- The loop of R74 over the groups of a message. -/
def encodeGroups : List Byte → List Byte
  | b0 :: b1 :: b2 :: b3 :: rest => (encBlock ⟨b0, b1, b2, b3⟩).bytes ++ encodeGroups rest
  | _ => []

/-- `z85_encode` (R74). -/
def z85Encode (m : List Byte) : Except Z85Error (List Byte) :=
  if m.length % 4 = 0 then .ok (encodeGroups m) else .error .invalidLength

/-- The encode group step (R99). No flag changes. -/
def encodeGroup (s : State) : Outcome State Fault Refusal :=
  toOutcome do
    let g ← readRawGroup s
    let t ← writeObufGroup s (encBlock g).bytes
    return { t with ipos := s.ipos + 4, opos := s.opos + 5 }

/-- `ENCODE` (R75): with `BUSY = 0` the command starts (R97); with `BUSY = 1` the running operation takes
its next step (R98, R99, R101). DESIGN CHOICE: the command resumes step by step (log 12). -/
def execEncode (s : State) : Outcome State Fault Refusal :=
  if s.busy then advance encodeGroup s else .next (start .encode s)

end Sys2Proof.Machine
end

