-- ==== Sys2Proof/Machine/Decoder.lean ====
section
/-! DEFINITION. The decoder: character validity (30_encoding.md R55), the group datapath `DEC_BLOCK`
(41_decoder.md R80 to R86), the message function `z85_decode` (R88), the decode group step
(42_sequencer_host.md R100) and the command `DECODE` (R89). -/

namespace Sys2Proof.Machine

open Host (Outcome)

/-- `VALID(c)`: `c` is an entry of `ENC_ROM` (R55). -/
def valid (c : Byte) : Bool := encRomTable.contains c

/-- `INRANGE(c)` (R80). -/
def inRange (c : Byte) : Bool := 0x20 ≤ c.toNat && c.toNat ≤ 0x7F

/-- `DEC_ROM[c - 0x20]` for a character in the table's span; another byte has no index (R80). -/
def decRomLookup (c : Byte) : Option Byte :=
  if h : 0x20 ≤ c.toNat ∧ c.toNat ≤ 0x7F then some (decRom ⟨c.toNat - 0x20, by omega⟩) else none

/-- `DIGIT(c)`, defined only for a valid character (R81). -/
def digitOf (c : Byte) : Option Byte := if valid c then decRomLookup c else none

/-- The realisation of `VALID` from the two ROMs alone that R56 allows: the range test first, then the
looked-up digit must lead back to the character. -/
def validByRoms (c : Byte) : Bool :=
  match decRomLookup c with
  | some d => if h : d.toNat < 85 then encRom ⟨d.toNat, h⟩ == c else false
  | none => false

/-- The offset of the first invalid character of a group (R82). -/
def firstInvalid (t : TextGroup) : Option (Fin 5) :=
  if !valid t.c0 then some 0
  else if !valid t.c1 then some 1
  else if !valid t.c2 then some 2
  else if !valid t.c3 then some 3
  else if !valid t.c4 then some 4
  else none

/-- One turn of the accumulation loop: `ACC <- ACC * 85 + d`, 33 bits, the digit zero-extended (R83). -/
def accStep (acc : Acc) (c : Byte) : Acc :=
  acc * 85 + ((digitOf c).getD 0).setWidth Config.accWidth

/-- `ACC` after the five characters of a group that are all valid (R83). -/
def accumulate (t : TextGroup) : Acc := t.bytes.foldl accStep 0

/-- What `ACC` holds after a decode group step: the sum when all five characters were valid, else 0
(R100). -/
def accAfter (t : TextGroup) : Acc :=
  match firstInvalid t with
  | some _ => 0
  | none => accumulate t

/-- The four bytes of a 32-bit value, most significant first (R85). -/
def valueBytes (v : BitVec 32) : RawGroup where
  b0 := BitVec.ofNat 8 (v.toNat / 256 ^ 3 % 256)
  b1 := BitVec.ofNat 8 (v.toNat / 256 ^ 2 % 256)
  b2 := BitVec.ofNat 8 (v.toNat / 256 ^ 1 % 256)
  b3 := BitVec.ofNat 8 (v.toNat / 256 ^ 0 % 256)

/-- What `DEC_BLOCK` answers (R86). -/
inductive BlockResult where
  | ok (g : RawGroup)
  | invalidCharacter (k : Fin 5)
  | valueOverflow
  deriving DecidableEq, Repr

/-- `DEC_BLOCK` (R86): validity first, then the sum, then the range test (R84), then the bytes. -/
def decBlock (t : TextGroup) : BlockResult :=
  match firstInvalid t with
  | some k => .invalidCharacter k
  | none =>
    if 2 ^ 32 ≤ (accumulate t).toNat then .valueOverflow
    else .ok (valueBytes ((accumulate t).setWidth 32))

/-- The loop of R88 over the groups from input index `idx` on. -/
def decodeGroups (idx : Nat) : List Byte → Except Z85Error (List Byte)
  | c0 :: c1 :: c2 :: c3 :: c4 :: rest =>
    match decBlock ⟨c0, c1, c2, c3, c4⟩ with
    | .invalidCharacter k => .error (.invalidCharacter (idx + k))
    | .valueOverflow => .error (.valueOverflow idx)
    | .ok g =>
      match decodeGroups (idx + 5) rest with
      | .ok out => .ok (g.bytes ++ out)
      | .error e => .error e
  | _ => .ok []

/-- `z85_decode` (R88). -/
def z85Decode (t : List Byte) : Except Z85Error (List Byte) :=
  if t.length % 5 = 0 then decodeGroups 0 t else .error .invalidLength

/-- The decode group step (R100). A failing step writes no `OBUF` cell and does not advance. -/
def decodeGroup (s : State) : Outcome State Fault Refusal :=
  toOutcome do
    let c ← readTextGroup s
    let u := { s with acc := accAfter c }
    match decBlock c with
    | .invalidCharacter k =>
      return raise .invalidCharacter (BitVec.ofNat Config.AW (s.ipos.toNat + k)) u
    | .valueOverflow => return raise .valueOverflow s.ipos u
    | .ok g =>
      let t ← writeObufGroup u g.bytes
      return { t with ipos := s.ipos + 5, opos := s.opos + 4 }

/-- `DECODE` (R89): with `BUSY = 0` the command starts (R97); with `BUSY = 1` the running operation takes
its next step (R98, R100, R101). DESIGN CHOICE: the command resumes step by step (log 12). -/
def execDecode (s : State) : Outcome State Fault Refusal :=
  if s.busy then advance decodeGroup s else .next (start .decode s)

end Sys2Proof.Machine
end

