-- ==== Sys2Proof/Machine/Transactions.lean ====
section
/-! DEFINITION. What an event of the total order does: the host's transactions (42_sequencer_host.md R96,
R111), a turn of SEQ (R98), the reset event (70_reset_and_hazards.md R135), and the host's polling loop
(30_encoding.md R66). -/

namespace Sys2Proof.Machine

open Host (Outcome)

/-- A register write (R96). `CMD` and `LEN` are ignored while `BUSY = 1` (R111); a write to a read-only
or reserved register is ignored at all times (R16 to R19). -/
def regWrite (r : Reg) (v : Word) (s : State) : Outcome State Fault Refusal :=
  match r with
  | .cmd => if s.busy then .next s else exec (decodeCommand v) s
  | .len => if s.busy then .next s else .next { s with len := v.setWidth Config.AW }
  | .status | .olen | .erridx | .reserved5 | .reserved6 | .reserved7 => .next s

/-- A host transaction (R96). -/
def transact (t : Txn) (s : State) : Outcome State Fault Refusal :=
  match t with
  | .wr r v => regWrite r v s
  | .rd r => .next (s.reply (.reg (regRead s r)))
  | .wb a v => if s.busy then .next s else .next { s with ibuf := s.ibuf.write a.toNat v }
  | .ri a =>
    match s.ibuf.read a.toNat with
    | some b => .next (s.reply (.ibuf b))
    | none => .refused (.unwrittenIbuf a.toNat)
  | .rb a =>
    match s.obuf.read a.toNat with
    | some b => .next (s.reply (.obuf b))
    | none => .refused (.unwrittenObuf a.toNat)

/-- A turn of SEQ: the running operation's next step, nothing when `BUSY = 0` (R98). -/
def seqTurn (s : State) : Outcome State Fault Refusal :=
  if s.busy then exec s.op s else .next s

/-- `WAIT`: read `STATUS`, and repeat until the value read has `DONE = 1` (R66). Between two reads SEQ has
one turn. DESIGN CHOICE (log 8). -/
def pollDone (s : State) : State :=
  let t := s.reply (.reg (statusWord s))
  if s.done then t else { t with script := .seq :: .wait :: t.script }

/-- What an event does. -/
def perform (e : Event) (s : State) : Outcome State Fault Refusal :=
  match e with
  | .host t => transact t s
  | .seq => seqTurn s
  | .reset => .next (resetEvent s)
  | .wait => .next (pollDone s)

end Sys2Proof.Machine
end

