-- ==== Sys2Proof/Machine/Step.lean ====
section
/-! DEFINITION. One step of the whole machine: the next event of the total order (42_sequencer_host.md R95).
When the script holds no event SEQ has the turn, so that an enabled step is always eventually taken (R98;
log 3). -/

namespace Sys2Proof.Machine

/-- One step. -/
def step (s : State) : Host.Outcome State Fault Refusal :=
  match s.script with
  | [] => seqTurn s
  | e :: rest => perform e { s with script := rest }

/-- The state in which the next event is a command write of the word `w`, which a CORE that is not `BUSY`
accepts (R14, R97; log 4, 13). -/
def State.withFetchWord (s : State) (nbits w : Nat) : State :=
  { s with
    busy := false
    script := .host (.wr .cmd (BitVec.ofNat 32 (w % 2 ^ nbits))) :: s.script }

end Sys2Proof.Machine
end

