-- ==== Sys2Proof/Machine/Operation.lean ====
section
/-! DEFINITION. The whole-operation form of the two commands (40_encoder.md R75, 41_decoder.md R89,
42_sequencer_host.md R106), which the step machine must agree with, and the number of steps an operation
takes (R104). The machine itself runs step by step; nothing of `step` calls what stands here. -/

namespace Sys2Proof.Machine

/-- The message function of a command (00_scope.md R8). -/
def convert : Instr → List Byte → Except Z85Error (List Byte)
  | .encode => z85Encode
  | .decode => z85Decode

/-- `OBUF` after an operation on `m` that failed in the group holding input index `idx`: the groups before
that one have been converted (R106, R123). -/
def obufAfterFailure (i : Instr) (m : List Byte) (idx : Nat) (obuf : Memory) : Memory :=
  match convert i (m.take (i.groupIn * (idx / i.groupIn))) with
  | .ok out => obuf.writeN 0 out
  | .error _ => obuf

/-- The state at the end of the whole operation on the message `m` (R75, R89, R106). -/
def wholeOperation (i : Instr) (m : List Byte) (s : State) : State :=
  match convert i m with
  | .ok out =>
    { s with op := i, obuf := s.obuf.writeN 0 out, olen := BitVec.ofNat (Config.AW + 1) out.length,
             done := true, busy := false, err := .noError, erridx := 0 }
  | .error .invalidLength => raise .invalidLength 0 { s with op := i }
  | .error (.invalidCharacter idx) =>
    raise .invalidCharacter (BitVec.ofNat Config.AW idx)
      { s with op := i, obuf := obufAfterFailure i m idx s.obuf }
  | .error (.valueOverflow idx) =>
    raise .valueOverflow (BitVec.ofNat Config.AW idx)
      { s with op := i, obuf := obufAfterFailure i m idx s.obuf }

/-- The number of sequencer steps an operation on `m` takes (R104). -/
def operationSteps (i : Instr) (m : List Byte) : Nat :=
  match convert i m with
  | .ok _ => m.length / i.groupIn + 1
  | .error .invalidLength => 0
  | .error (.invalidCharacter idx) => idx / i.groupIn + 1
  | .error (.valueOverflow idx) => idx / i.groupIn + 1

end Sys2Proof.Machine
end

