-- ==== Sys2Proof/Machine/Script.lean ====
section
/-! DEFINITION. The host's script notation as events: each line and the expansion of each pseudo-line
(30_encoding.md R66). -/

namespace Sys2Proof.Machine

/-- `WB a, x0`; `WB a+1, x1`; and so on: the expansion of `LOAD` (R66). -/
def loadEvents (a : Nat) : List Nat → List Event
  | [] => []
  | x :: xs => .host (.wb (BitVec.ofNat Config.AW a) (BitVec.ofNat 8 x)) :: loadEvents (a + 1) xs

/-- `WR LEN, n`; `WR CMD, op`: the expansion of `ENCODE n` and `DECODE n` (R66). -/
def commandEvents (i : Instr) (n : Nat) : List Event :=
  [.host (.wr .len (BitVec.ofNat 32 n)), .host (.wr .cmd (encodeCommand 0#31 i))]

/-- The events a script line stands for (R66). -/
def lineEvents : Line → List Event
  | .wr r v => [.host (.wr (decodeReg (BitVec.ofNat 3 r)) (BitVec.ofNat 32 v))]
  | .rd r => [.host (.rd (decodeReg (BitVec.ofNat 3 r)))]
  | .wb a v => [.host (.wb (BitVec.ofNat Config.AW a) (BitVec.ofNat 8 v))]
  | .ri a => [.host (.ri (BitVec.ofNat Config.AW a))]
  | .rb a => [.host (.rb (BitVec.ofNat (Config.AW + 1) a))]
  | .reset => [.reset]
  | .load a xs => loadEvents a xs
  | .loads a text => loadEvents a (text.map Char.toNat)
  | .encode n => commandEvents .encode n
  | .decode n => commandEvents .decode n
  | .wait => [.wait]
  | .dump n => (List.range n).map fun a => .host (.rb (BitVec.ofNat (Config.AW + 1) a))

/-- The events of a script, line by line. -/
def scriptEvents (ls : List Line) : List Event := ls.flatMap lineEvents

/-- The state in which the host is about to run a script. -/
def State.withScript (s : State) (ls : List Line) : State :=
  { s with script := scriptEvents ls ++ s.script }

end Sys2Proof.Machine
end

