-- ==== Sys2Proof/Safety.lean ====
section
/-! DEFINITION. What the statements are made in: the machine's invariant (10_state.md R26), and the words for
the events of a run. -/

namespace Sys2Proof.Machine

/-- The value five base-85 digits stand for, most significant first (R34, R58, R59). -/
def digitsValue (d0 d1 d2 d3 d4 : Fin 85) : Nat :=
  d0.val * 52200625 + d1.val * 614125 + d2.val * 7225 + d3.val * 85 + d4.val

/-- The text group of five digits: a group of valid characters is one of these (R55, R58). -/
def textOfDigits (d0 d1 d2 d3 d4 : Fin 85) : TextGroup :=
  ⟨encRom d0, encRom d1, encRom d2, encRom d3, encRom d4⟩

/-- Group `g` of a text consists of valid characters of a value of `2^32` or more (R119). -/
def GroupOverflows (t : List Byte) (g : Nat) : Prop :=
  ∃ d0 d1 d2 d3 d4, (t.drop (5 * g)).take 5 = (textOfDigits d0 d1 d2 d3 d4).bytes ∧
    2 ^ 32 ≤ digitsValue d0 d1 d2 d3 d4

/-- The value of four bytes, the first most significant (R33). -/
def bytesValue (b0 b1 b2 b3 : Byte) : Nat :=
  b0.toNat * 16777216 + b1.toNat * 65536 + b2.toNat * 256 + b3.toNat

/-- The digit tuple is lexicographically greater than that of the largest legal group `%nSc0`, (82, 23,
54, 12, 0) (R63). -/
def digitsAboveMax (d0 d1 d2 d3 d4 : Fin 85) : Prop :=
  82 < d0.val ∨ (d0.val = 82 ∧ (23 < d1.val ∨ (d1.val = 23 ∧ (54 < d2.val ∨ (d2.val = 54 ∧
    (12 < d3.val ∨ (d3.val = 12 ∧ 0 < d4.val)))))))

/-- The group just before `IPOS` and all before it have been converted into `OBUF[0 .. OPOS-1]` (R26
item 3). -/
def Converted (s : State) : Prop :=
  ∃ m out, s.ibuf.readN 0 s.ipos.toNat = some m ∧ convert s.op m = .ok out ∧
    s.obuf.readN 0 s.opos.toNat = some out

/-- The invariant of R26 (items 1, 2, 3, 5 and 6), with the canonical form of the two buffers, the rule
that `ERRIDX` is 0 without an indexed error (R18), and that the result cells hold values (R17, R41). Item
4 of R26 speaks of one step and is a statement of its own. -/
structure Inv (s : State) : Prop where
  not_both : ¬ (s.busy = true ∧ s.done = true)
  running_clear : s.busy = true → s.err = .noError ∧ s.olen = 0 ∧ s.erridx = 0
  running_length : s.busy = true → s.len.toNat % s.op.groupIn = 0
  running_ipos : s.busy = true → s.ipos.toNat % s.op.groupIn = 0 ∧ s.ipos.toNat ≤ s.len.toNat
  running_opos : s.busy = true → s.opos.toNat = s.ipos.toNat / s.op.groupIn * s.op.groupOut
  running_converted : s.busy = true → Converted s
  error_ended : s.err ≠ .noError → s.done = true ∧ s.busy = false ∧ s.olen = 0
  idle_clear : s.busy = false → s.done = false → s.err = .noError ∧ s.olen = 0 ∧ s.erridx = 0
  index_clear : s.err = .noError ∨ s.err = .invalidLength → s.erridx = 0
  result_written : ∃ out, s.obuf.readN 0 s.olen.toNat = some out
  ibuf_wf : Memory.wf Config.ibufSize s.ibuf = true
  obuf_wf : Memory.wf Config.obufSize s.obuf = true

/-- The event the next step performs: the script's first, or SEQ's turn when the script is empty. -/
def nextEvent (s : State) : Event :=
  match s.script with
  | [] => .seq
  | e :: _ => e

/-- The state with its next event taken off the script. -/
def popEvent (s : State) : State := { s with script := s.script.tail }

/-- `k` steps of the whole machine, stopping at the first fault or refusal. -/
def run : Nat → State → Host.Outcome State Fault Refusal
  | 0, s => .next s
  | k + 1, s =>
    match step s with
    | .next t => run k t
    | .fault r => .fault r
    | .refused r => .refused r

end Sys2Proof.Machine
end

