-- ==== Sys2Proof/Certificates/Slice0/Obligations.lean ====
section
/-! DEFINITION. The statements for the provers, each from the rules of spec/ its docstring names. -/

open Sys2Proof Sys2Proof.Machine
open Host (Outcome)

/-! ## Encoding -/

/-- 30_encoding.md R64: an odd word decodes, an even word encodes, and no 32-bit word is illegal. -/
def Obligations.OddWordsDecodeEvenWordsEncode : Prop :=
  ∀ w : Nat, w < 2 ^ 32 →
    decodeTableWord 32 w = some (if w % 2 = 1 then Instr.decode else Instr.encode)

/-- 30_encoding.md R60, R61, 10_state.md R25 and 20_memory.md R38: decoding gives back the command and the
register whose words were written, whatever the ignored bits hold, every word and register number arises so,
and each number names the register of R38. -/
def Obligations.DecodeInvertsEncode : Prop :=
  (∀ (i : Instr) (ignored : BitVec 31) (rest : List Word),
      decode (encodeCommand ignored i :: rest) = .ok (i, rest)) ∧
    (∀ i : Instr, ∃ ws, encode i = ws ∧ decode ws = .ok (i, [])) ∧
    (∀ v : Word, ∃ ignored : BitVec 31, v = encodeCommand ignored (decodeCommand v)) ∧
    (∀ r : Reg, decodeReg r.num = r) ∧ (∀ n : BitVec 3, (decodeReg n).num = n) ∧
    decodeReg 0 = .cmd ∧ decodeReg 1 = .len ∧ decodeReg 2 = .status ∧ decodeReg 3 = .olen ∧
    decodeReg 4 = .erridx ∧ decodeReg 5 = .reserved5 ∧ decodeReg 6 = .reserved6 ∧
    decodeReg 7 = .reserved7

/-- 30_encoding.md R61 and the vectors D-H12, D-H13: words written out from the table, decoded. -/
def Obligations.TableWordsDecode : Prop :=
  decodeCommand 0x00000000 = .encode ∧ decodeCommand 0x00000001 = .decode ∧
    decodeCommand 0xFFFFFFFE = .encode ∧ decodeCommand 0x80000001 = .decode

/-! ## A step runs the decoded command -/

/-- 10_state.md R14, 42_sequencer_host.md R97: a command written while `BUSY = 0` runs. -/
def Obligations.AcceptedCommandRuns : Prop :=
  ∀ (s : State) (v : Word) (rest : List Event),
    s.script = .host (.wr .cmd v) :: rest → s.busy = false →
      step s = exec (decodeCommand v) { s with script := rest }

/-- 42_sequencer_host.md R98: in SEQ's turn the running command takes its next step, and with `BUSY = 0`
SEQ does nothing. That an empty script gives SEQ the turn is the model's (log 3). -/
def Obligations.SequencerTurnAdvancesCommand : Prop :=
  ∀ (s : State) (rest : List Event),
    s.script = .seq :: rest ∨ (s.script = [] ∧ rest = []) →
      (s.busy = true → step s = exec s.op { s with script := rest }) ∧
        (s.busy = false → step s = .next { s with script := rest })

/-- The fetch of a table word (log 4, 13): the word's command runs at the next step. -/
def Obligations.FetchedTableWordRuns : Prop :=
  ∀ (s : State) (w : Nat) (i : Instr),
    w < 2 ^ 32 → decodeTableWord 32 w = some i →
      step (s.withFetchWord 32 w) = exec i { s with busy := false }

/-! ## Reset -/

/-- 10_state.md R24: every register is 0. R24 leaves every buffer cell unspecified: that a cell then has no
value is the treatment of 93_implementation_defined.md U1 that the model takes (log 6). -/
def Obligations.ResetStateValues : Prop :=
  State.reset.op = .encode ∧ State.reset.len = 0 ∧ State.reset.busy = false ∧
    State.reset.done = false ∧ State.reset.err = .noError ∧ State.reset.olen = 0 ∧
    State.reset.erridx = 0 ∧ State.reset.ipos = 0 ∧ State.reset.opos = 0 ∧ State.reset.acc = 0 ∧
    ∀ a, State.reset.ibuf.read a = none ∧ State.reset.obuf.read a = none

/-- 70_reset_and_hazards.md R135, R136: from every state, running or not, the reset event leaves the reset
state; what the host has still to do and what it has read stay (log 15). -/
def Obligations.ResetEventClearsEverything : Prop :=
  ∀ (s : State) (rest : List Event), s.script = .reset :: rest →
    step s = .next { State.reset with script := rest, replies := s.replies }

/-! ## Host transactions -/

/-- 10_state.md R14 to R19: the value each register read returns; a read changes nothing. -/
def Obligations.RegisterReadsReturnFields : Prop :=
  ∀ (s : State) (r : Reg) (rest : List Event), s.script = .host (.rd r) :: rest →
    ∃ v : Word, step s = .next { s with script := rest, replies := .reg v :: s.replies } ∧
      v.toNat =
        match r with
        | .cmd => (match s.op with | .encode => 0 | .decode => 1)
        | .len => s.len.toNat
        | .status =>
          s.busy.toNat + 2 * s.done.toNat +
            4 * (match s.err with
              | .noError => 0 | .invalidLength => 1 | .invalidCharacter => 2 | .valueOverflow => 3)
        | .olen => s.olen.toNat
        | .erridx => s.erridx.toNat
        | .reserved5 | .reserved6 | .reserved7 => 0

/-- 10_state.md R15: an accepted write of `LEN` takes the low `AW` bits and changes nothing else. -/
def Obligations.LenWriteTakesLowBits : Prop :=
  ∀ (s : State) (v : Word) (rest : List Event),
    s.script = .host (.wr .len v) :: rest → s.busy = false →
      ∃ t, step s = .next t ∧ t.len.toNat = v.toNat % 2 ^ Config.AW ∧
        t = { s with script := rest, len := t.len }

/-- 42_sequencer_host.md R111: while `BUSY = 1` the writes of `CMD`, `LEN` and `IBUF` change no state. -/
def Obligations.WritesWhileBusyIgnored : Prop :=
  ∀ (s : State) (x : Txn) (rest : List Event), s.script = .host x :: rest → s.busy = true →
    ((∃ v, x = .wr .cmd v) ∨ (∃ v, x = .wr .len v) ∨ ∃ a b, x = .wb a b) →
      step s = .next { s with script := rest }

/-- 42_sequencer_host.md R111: what reads return while an operation runs; a cell of `OBUF` below `OPOS` is
the byte of the converted message. -/
def Obligations.ReadsWhileRunning : Prop :=
  ∀ (s : State) (rest : List Event), Inv s → s.busy = true →
    (s.script = .host (.rd .status) :: rest →
        step s = .next { s with script := rest, replies := .reg 1 :: s.replies }) ∧
      (s.script = .host (.rd .olen) :: rest ∨ s.script = .host (.rd .erridx) :: rest →
        step s = .next { s with script := rest, replies := .reg 0 :: s.replies }) ∧
      ∃ m out, s.ibuf.readN 0 s.ipos.toNat = some m ∧ convert s.op m = .ok out ∧
        ∀ a : OAddr, a.toNat < s.opos.toNat → s.script = .host (.rb a) :: rest →
          ∃ b, out[a.toNat]? = some b ∧
            step s = .next { s with script := rest, replies := .obuf b :: s.replies }

/-- 42_sequencer_host.md R96 and 20_memory.md R40: an accepted `IBUF` write stores its byte in its cell
alone, and a read then returns it. -/
def Obligations.InputWriteIsReadBack : Prop :=
  ∀ (s : State) (a : IAddr) (v : Byte) (rest : List Event),
    s.script = .host (.wb a v) :: .host (.ri a) :: rest → s.busy = false →
      ∃ t, run 2 s = .next t ∧ t = { s with script := rest, ibuf := t.ibuf, replies := t.replies } ∧
        t.replies = .ibuf v :: s.replies ∧
        ∀ a', t.ibuf.read a' = if a' = a.toNat then some v else s.ibuf.read a'

/-- 20_memory.md R37, R45: a read of a buffer returns the cell's byte and changes nothing; a read of a cell
not written since reset is refused (U1; log 6). -/
def Obligations.BufferReadsReturnCells : Prop :=
  (∀ (s : State) (a : IAddr) (rest : List Event), s.script = .host (.ri a) :: rest →
      step s = match s.ibuf.read a.toNat with
        | some b => .next { s with script := rest, replies := .ibuf b :: s.replies }
        | none => .refused (.unwrittenIbuf a.toNat)) ∧
    ∀ (s : State) (a : OAddr) (rest : List Event), s.script = .host (.rb a) :: rest →
      step s = match s.obuf.read a.toNat with
        | some b => .next { s with script := rest, replies := .obuf b :: s.replies }
        | none => .refused (.unwrittenObuf a.toNat)

/-- 30_encoding.md R66: `LOAD a, x0 ... xn` puts its bytes into `IBUF` from address `a` up and leaves every
other cell and register alone (well-formed lines: log 16). -/
def Obligations.LoadLineStoresItsBytes : Prop :=
  ∀ (s : State) (a : Nat) (xs : List Nat) (rest : List Event),
    (Line.load a xs).wf = true → s.busy = false → s.script = lineEvents (.load a xs) ++ rest →
      ∃ t, run xs.length s = .next t ∧ t = { s with script := rest, ibuf := t.ibuf } ∧
        t.ibuf.readN a xs.length = some (xs.map (BitVec.ofNat 8)) ∧
        ∀ a', a' < a ∨ a + xs.length ≤ a' → t.ibuf.read a' = s.ibuf.read a'

/-- 30_encoding.md R66: the pseudo-lines `ENCODE n` and `DECODE n` set `LEN` to `n` and start the
command. -/
def Obligations.CommandLinesStart : Prop :=
  ∀ (s : State) (n : Nat) (rest : List Event), n < 2 ^ Config.AW → s.busy = false →
    (s.script = lineEvents (.encode n) ++ rest →
        run 2 s = exec .encode { s with len := BitVec.ofNat Config.AW n, script := rest }) ∧
      (s.script = lineEvents (.decode n) ++ rest →
        run 2 s = exec .decode { s with len := BitVec.ofNat Config.AW n, script := rest })

/-- 30_encoding.md R66: the loop `WAIT` on a running operation whose message has been written ends, with a
last value of `STATUS` that has `DONE = 1`. The schedule of SEQ between two polls is the model's (log 8). -/
def Obligations.WaitEndsWithDone : Prop :=
  ∀ (s : State) (m : List Byte) (rest : List Event),
    Inv s → s.busy = true → s.message = some m → s.script = .wait :: rest →
      ∃ k t v, run k s = .next t ∧ t.script = rest ∧ t.done = true ∧ t.busy = false ∧
        t.replies.head? = some (.reg v) ∧ v.toNat / 2 % 2 = 1

/-! ## Start -/

/-- 42_sequencer_host.md R97: what a write of `CMD` accepted with `BUSY = 0` does, for every word, every
length and whatever the buffers hold: it clears what a start clears, and runs, or ends at once with
`InvalidLength`. -/
def Obligations.StartFollowsRule : Prop :=
  ∀ (v : Word) (s : State), s.busy = false →
    exec (decodeCommand v) s =
        (if s.len.toNat % (if v.toNat % 2 = 0 then 4 else 5) = 0 then
          .next { s with op := if v.toNat % 2 = 0 then .encode else .decode, err := .noError,
                         erridx := 0, olen := 0, ipos := 0, opos := 0, acc := 0, done := false,
                         busy := true }
        else
          .next { s with op := if v.toNat % 2 = 0 then .encode else .decode, err := .invalidLength,
                         erridx := 0, olen := 0, ipos := 0, opos := 0, acc := 0, done := true,
                         busy := false }) ∧
      ∀ rest, s.script = .host (.wr .cmd v) :: rest →
        step s = exec (decodeCommand v) { s with script := rest }

/-! ## Sequencer steps -/

/-- 42_sequencer_host.md R99 with 40_encoder.md R70 to R72: the encode group step writes the five characters
of its group at `OPOS`, advances, and changes nothing else. -/
def Obligations.EncodeGroupStepConverts : Prop :=
  ∀ (s : State) (b0 b1 b2 b3 : Byte), Inv s → s.busy = true → s.op = .encode →
    s.ipos.toNat < s.len.toNat → s.ibuf.readN s.ipos.toNat 4 = some [b0, b1, b2, b3] →
      s.ipos.toNat + 3 < s.len.toNat ∧ ∃ t, exec .encode s = .next t ∧
        t = { s with obuf := t.obuf, ipos := t.ipos, opos := t.opos } ∧
        t.ipos.toNat = s.ipos.toNat + 4 ∧ t.opos.toNat = s.opos.toNat + 5 ∧
        t.obuf.readN s.opos.toNat 5 =
          some [encRom (Fin.ofNat 85 (bytesValue b0 b1 b2 b3 / 52200625)),
            encRom (Fin.ofNat 85 (bytesValue b0 b1 b2 b3 / 614125)),
            encRom (Fin.ofNat 85 (bytesValue b0 b1 b2 b3 / 7225)),
            encRom (Fin.ofNat 85 (bytesValue b0 b1 b2 b3 / 85)),
            encRom (Fin.ofNat 85 (bytesValue b0 b1 b2 b3))] ∧
        ∀ a, a < s.opos.toNat ∨ s.opos.toNat + 5 ≤ a → t.obuf.read a = s.obuf.read a

/-- 42_sequencer_host.md R100 with 41_decoder.md R83 to R86: a decode group step on a good group writes the
four bytes of its value at `OPOS`, leaves the sum in `ACC`, advances, and changes nothing else. -/
def Obligations.DecodeGroupStepConverts : Prop :=
  ∀ (s : State) (d0 d1 d2 d3 d4 : Fin 85), Inv s → s.busy = true → s.op = .decode →
    s.ipos.toNat < s.len.toNat →
    s.ibuf.readN s.ipos.toNat 5 = some [encRom d0, encRom d1, encRom d2, encRom d3, encRom d4] →
    digitsValue d0 d1 d2 d3 d4 < 2 ^ 32 →
      ∃ t, exec .decode s = .next t ∧
        t = { s with obuf := t.obuf, ipos := t.ipos, opos := t.opos, acc := t.acc } ∧
        t.ipos.toNat = s.ipos.toNat + 5 ∧ t.opos.toNat = s.opos.toNat + 4 ∧
        t.acc.toNat = digitsValue d0 d1 d2 d3 d4 ∧
        t.obuf.readN s.opos.toNat 4 =
          some [BitVec.ofNat 8 (digitsValue d0 d1 d2 d3 d4 / 16777216),
            BitVec.ofNat 8 (digitsValue d0 d1 d2 d3 d4 / 65536),
            BitVec.ofNat 8 (digitsValue d0 d1 d2 d3 d4 / 256),
            BitVec.ofNat 8 (digitsValue d0 d1 d2 d3 d4)] ∧
        ∀ a, a < s.opos.toNat ∨ s.opos.toNat + 4 ≤ a → t.obuf.read a = s.obuf.read a

/-- 60_exceptions.md R117, R118, R120: a decode group step on a group with an invalid character ends the
operation with the index of the first one; no cell is written. -/
def Obligations.InvalidCharacterEndsOperation : Prop :=
  ∀ (s : State) (cs : List Byte) (k : Nat), Inv s → s.busy = true → s.op = .decode →
    s.ipos.toNat < s.len.toNat → s.ibuf.readN s.ipos.toNat 5 = some cs →
    (cs.map valid)[k]? = some false → (∀ j, j < k → (cs.map valid)[j]? = some true) →
      ∃ t, exec .decode s = .next t ∧ t.erridx.toNat = s.ipos.toNat + k ∧
        t = { s with err := .invalidCharacter, erridx := t.erridx, olen := 0, busy := false,
                     done := true, acc := 0 }

/-- 60_exceptions.md R118, R119, R120: a decode group step on five valid characters whose value is `2^32` or
more ends the operation with the index of the group's first character; no cell is written. -/
def Obligations.ValueOverflowEndsOperation : Prop :=
  ∀ (s : State) (d0 d1 d2 d3 d4 : Fin 85), Inv s → s.busy = true → s.op = .decode →
    s.ipos.toNat < s.len.toNat →
    s.ibuf.readN s.ipos.toNat 5 = some [encRom d0, encRom d1, encRom d2, encRom d3, encRom d4] →
    2 ^ 32 ≤ digitsValue d0 d1 d2 d3 d4 →
      exec .decode s =
        .next { s with err := .valueOverflow, erridx := s.ipos, olen := 0, busy := false, done := true,
                       acc := BitVec.ofNat 33 (digitsValue d0 d1 d2 d3 d4) }

/-- 42_sequencer_host.md R101: the finish step, and that it is the only step of an operation with `LEN = 0`. -/
def Obligations.FinishStepPublishesLength : Prop :=
  (∀ (i : Instr) (s : State), s.busy = true → s.op = i → s.ipos = s.len →
      exec i s = .next { s with olen := s.opos, busy := false, done := true }) ∧
    ∀ (i : Instr) (s : State), s.busy = false → s.len = 0 →
      ∃ u, exec i s = .next u ∧ u.busy = true ∧ u.op = i ∧
        exec u.op u =
          .next { s with op := i, err := .noError, erridx := 0, olen := 0, ipos := 0, opos := 0, acc := 0,
                         done := true, busy := false }

/-- 10_state.md R17, R26 item 4: the length published at a successful end. -/
def Obligations.FinishedLengthIsExact : Prop :=
  ∀ s t : State, Inv s → s.busy = true → exec s.op s = .next t → t.done = true → t.err = .noError →
    t.olen.toNat =
      match s.op with
      | .encode => 5 * (s.len.toNat / 4)
      | .decode => 4 * (s.len.toNat / 5)

/-- 20_memory.md R45, 70_reset_and_hazards.md R144 and the vector D-H21: a group step that would read a cell
not written since reset is refused at the first such cell, and not at the start (log 6). -/
def Obligations.UnwrittenInputRefused : Prop :=
  ∀ (s : State) (k : Nat), Inv s → s.busy = true → s.ipos.toNat < s.len.toNat →
    k < s.op.groupIn → s.ibuf.read (s.ipos.toNat + k) = none →
    (∀ j, j < k → s.ibuf.read (s.ipos.toNat + j) ≠ none) →
      exec s.op s = .refused (.unwrittenIbuf (s.ipos.toNat + k))

/-! ## The ROMs and the group datapaths -/

/-- 30_encoding.md R54: the inverse laws between the two ROMs. -/
def Obligations.RomsAreInverse : Prop :=
  (∀ d : Fin 85, ∃ j : Fin 96, (encRom d).toNat = j.val + 0x20 ∧ (decRom j).toNat = d.val) ∧
    (∀ j : Fin 96, (∃ d : Fin 85, (encRom d).toNat = j.val + 0x20) →
      ∃ d : Fin 85, (decRom j).toNat = d.val ∧ (encRom d).toNat = j.val + 0x20) ∧
    (∀ j : Fin 96, (∀ d : Fin 85, (encRom d).toNat ≠ j.val + 0x20) →
      decRom j = 0 ∧ encRom 0 = 0x30 ∧ (encRom 0).toNat ≠ j.val + 0x20) ∧
    (∀ j : Fin 96, decRom j = 0 ↔ j.val ∈ [16, 0, 2, 7, 12, 27, 60, 63, 64, 92, 94, 95]) ∧
    ∀ j : Fin 96, (decRom j).toNat ≤ 84

/-- 30_encoding.md R56: the realisation of `VALID` from the two ROMs alone computes `VALID`. -/
def Obligations.ValidityFromRoms : Prop :=
  ∀ c : Byte, validByRoms c = valid c

/-- 30_encoding.md R55: the classification of all byte values, by entries, by ranges and by the mask. -/
def Obligations.ValidCharactersClassified : Prop :=
  ∀ c : Byte,
    (valid c = true ↔ ∃ d : Fin 85, encRom d = c) ∧
    (valid c = true ↔
      c.toNat = 0x21 ∨ (0x23 ≤ c.toNat ∧ c.toNat ≤ 0x26) ∨ (0x28 ≤ c.toNat ∧ c.toNat ≤ 0x2B) ∨
        (0x2D ≤ c.toNat ∧ c.toNat ≤ 0x3A) ∨ (0x3C ≤ c.toNat ∧ c.toNat ≤ 0x5B) ∨
        (0x5D ≤ c.toNat ∧ c.toNat ≤ 0x5E) ∨ (0x61 ≤ c.toNat ∧ c.toNat ≤ 0x7B) ∨ c.toNat = 0x7D) ∧
    (valid c = (decide (0x20 ≤ c.toNat) && Nat.testBit 0x2FFFFFFE6FFFFFFFF7FFEF7A (c.toNat - 0x20)))

/-- 40_encoder.md R70, 41_decoder.md R85: the byte order of a group value, in both directions, as sums and
quotients and as bit slices. -/
def Obligations.GroupValueIsBigEndian : Prop :=
  (∀ g : RawGroup, groupValue g = g.b0 ++ g.b1 ++ g.b2 ++ g.b3 ∧
      (groupValue g).toNat =
        ((g.b0.toNat * 256 + g.b1.toNat) * 256 + g.b2.toNat) * 256 + g.b3.toNat) ∧
    ∀ v : BitVec 32,
      valueBytes v =
          ⟨v.extractLsb' 24 8, v.extractLsb' 16 8, v.extractLsb' 8 8, v.extractLsb' 0 8⟩ ∧
        (valueBytes v).b0.toNat = v.toNat / 16777216 % 256 ∧
        (valueBytes v).b1.toNat = v.toNat / 65536 % 256 ∧
        (valueBytes v).b2.toNat = v.toNat / 256 % 256 ∧
        (valueBytes v).b3.toNat = v.toNat / 1 % 256

/-- 40_encoder.md R73 items 2 to 4: the digits of `ENC_BLOCK` are the unique base-85 representation of `V`
in five places, the first is at most 82, and repeated division gives the same digits. -/
def Obligations.DigitsRepresentValue : Prop :=
  ∀ g : RawGroup, ∃ d0 d1 d2 d3 d4 : Fin 85,
    encBlock g = textOfDigits d0 d1 d2 d3 d4 ∧
      digitsValue d0 d1 d2 d3 d4 = bytesValue g.b0 g.b1 g.b2 g.b3 ∧ d0.val ≤ 82 ∧
      (∀ e0 e1 e2 e3 e4 : Fin 85, digitsValue e0 e1 e2 e3 e4 = bytesValue g.b0 g.b1 g.b2 g.b3 →
        e0 = d0 ∧ e1 = d1 ∧ e2 = d2 ∧ e3 = d3 ∧ e4 = d4) ∧
      d4.val = bytesValue g.b0 g.b1 g.b2 g.b3 % 85 ∧
      d3.val = bytesValue g.b0 g.b1 g.b2 g.b3 / 85 % 85 ∧
      d2.val = bytesValue g.b0 g.b1 g.b2 g.b3 / 85 / 85 % 85 ∧
      d1.val = bytesValue g.b0 g.b1 g.b2 g.b3 / 85 / 85 / 85 % 85 ∧
      d0.val = bytesValue g.b0 g.b1 g.b2 g.b3 / 85 / 85 / 85 / 85

/-- 41_decoder.md R83: every partial sum of the 33-bit accumulator is exact, and after five characters it is
the group's value. -/
def Obligations.AccumulatorIsExact : Prop :=
  (∀ ds : List (Fin 85), ds.length ≤ 5 →
      ((ds.map encRom).foldl accStep 0).toNat = ds.foldl (fun n d => n * 85 + d.val) 0 ∧
        ds.foldl (fun n d => n * 85 + d.val) 0 < 85 ^ ds.length) ∧
    ∀ d0 d1 d2 d3 d4 : Fin 85,
      (accumulate (textOfDigits d0 d1 d2 d3 d4)).toNat =
        d0.val * 85 ^ 4 + d1.val * 85 ^ 3 + d2.val * 85 ^ 2 + d3.val * 85 + d4.val

/-- 30_encoding.md R63, 41_decoder.md R87 item 5: a group of valid characters overflows exactly when its
digit tuple is above (82, 23, 54, 12, 0). -/
def Obligations.OverflowBoundary : Prop :=
  ∀ d0 d1 d2 d3 d4 : Fin 85,
    (decBlock (textOfDigits d0 d1 d2 d3 d4) = .valueOverflow ↔ digitsAboveMax d0 d1 d2 d3 d4) ∧
      (2 ^ 32 ≤ digitsValue d0 d1 d2 d3 d4 ↔ digitsAboveMax d0 d1 d2 d3 d4)

/-- 41_decoder.md R87 item 7: the two group datapaths are inverse to each other. -/
def Obligations.GroupDatapathsAreInverse : Prop :=
  (∀ g : RawGroup, decBlock (encBlock g) = .ok g) ∧
    (∀ (t : TextGroup) (g : RawGroup), decBlock t = .ok g → encBlock g = t) ∧
    ∀ g g' : RawGroup, encBlock g = encBlock g' → g = g'

/-! ## The message functions -/

/-- 40_encoder.md R76 items 1 to 4: length law, size, alphabet closure and rejection of `z85_encode`. -/
def Obligations.EncodeLengthAndAlphabet : Prop :=
  ∀ m : List Byte,
    (m.length % 4 = 0 → ∃ out, z85Encode m = .ok out ∧ out.length = 5 * (m.length / 4) ∧
      out.length = m.length + m.length / 4 ∧ ∀ c ∈ out, valid c = true) ∧
    (m.length % 4 ≠ 0 → z85Encode m = .error .invalidLength)

/-- 40_encoder.md R76 item 5. -/
def Obligations.EncodeIsInjective : Prop :=
  ∀ m m' out : List Byte, z85Encode m = .ok out → z85Encode m' = .ok out → m = m'

/-- 40_encoder.md R76 item 6. -/
def Obligations.EncodeConcatenates : Prop :=
  ∀ m1 m2 o1 o2 : List Byte, z85Encode m1 = .ok o1 → z85Encode m2 = .ok o2 →
    z85Encode (m1 ++ m2) = .ok (o1 ++ o2)

/-- 41_decoder.md R91 items 1 and 2: length law and rejection by length of `z85_decode`. -/
def Obligations.DecodeLengthLaw : Prop :=
  ∀ t : List Byte,
    (∀ out, z85Decode t = .ok out → t.length % 5 = 0 ∧ out.length = 4 * (t.length / 5)) ∧
      (t.length % 5 ≠ 0 → z85Decode t = .error .invalidLength)

/-- 41_decoder.md R91 item 3, 60_exceptions.md R121: for a text of legal length the first bad group decides.
The first invalid character is reported if no group wholly before it overflows; the first overflowing group is
reported if every character before it is valid, whatever comes after it; and a text with neither decodes. -/
def Obligations.FirstInvalidCharacterDecides : Prop :=
  ∀ t : List Byte, t.length % 5 = 0 →
    (∀ i, (t.map valid)[i]? = some false → (∀ j, j < i → (t.map valid)[j]? = some true) →
      (∀ g, 5 * g + 5 ≤ i → ¬ GroupOverflows t g) → z85Decode t = .error (.invalidCharacter i)) ∧
    (∀ g, GroupOverflows t g → (∀ g', g' < g → ¬ GroupOverflows t g') →
      (∀ j, j < 5 * g → (t.map valid)[j]? = some true) → z85Decode t = .error (.valueOverflow (5 * g))) ∧
    ((∀ c ∈ t, valid c = true) → (∀ g, ¬ GroupOverflows t g) → ∃ out, z85Decode t = .ok out)

/-- 41_decoder.md R91 item 4: every text that decodes is the encoding of what it decodes to. -/
def Obligations.DecodedTextsAreCanonical : Prop :=
  ∀ t out : List Byte, z85Decode t = .ok out → z85Encode out = .ok t

/-- 41_decoder.md R91 item 5: decoding a concatenation. -/
def Obligations.DecodeConcatenates : Prop :=
  ∀ t1 t2 : List Byte, t1.length % 5 = 0 → t2.length % 5 = 0 →
    z85Decode (t1 ++ t2) =
      match z85Decode t1, z85Decode t2 with
      | .error e, _ => .error e
      | .ok o1, .ok o2 => .ok (o1 ++ o2)
      | .ok _, .error .invalidLength => .error .invalidLength
      | .ok _, .error (.invalidCharacter i) => .error (.invalidCharacter (t1.length + i))
      | .ok _, .error (.valueOverflow i) => .error (.valueOverflow (t1.length + i))

/-- 41_decoder.md R91 item 6: none of the 11 sentinel slots is accepted as digit 0. -/
def Obligations.SentinelsAreRejected : Prop :=
  ∀ c ∈ ([0x20, 0x22, 0x27, 0x2C, 0x3B, 0x5C, 0x5F, 0x60, 0x7C, 0x7E, 0x7F] : List Byte),
    z85Decode [0x30, 0x30, 0x30, 0x30, c] = .error (.invalidCharacter 4)

/-- 41_decoder.md R90: the round trip. -/
def Obligations.EncodeThenDecodeRoundTrips : Prop :=
  ∀ b : List Byte, b.length % 4 = 0 → ∃ t, z85Encode b = .ok t ∧ z85Decode t = .ok b

/-! ## The whole machine -/

/-- 10_state.md R26: the invariant holds after reset. -/
def Obligations.InvariantAtReset : Prop := Inv State.reset

/-- 10_state.md R26: from every state with the invariant, reachable or not, a step keeps it. -/
def Obligations.StepKeepsInvariant : Prop :=
  ∀ s t : State, Inv s → step s = .next t → Inv t

/-- 60_exceptions.md R128, 20_memory.md R45: with the invariant no step faults, and a step is refused only
for a cell not written since reset (log 6, 7). -/
def Obligations.StepNeverFaults : Prop :=
  ∀ s : State, Inv s →
    (∀ f, step s ≠ .fault f) ∧
      ∀ r, step s = .refused r →
        (∃ a, r = .unwrittenIbuf a ∧ a < 2 ^ Config.AW ∧ s.ibuf.read a = none) ∨
          ∃ a, r = .unwrittenObuf a ∧ a < 2 ^ (Config.AW + 1) ∧ s.obuf.read a = none

/-- 42_sequencer_host.md R104, R106: an operation that SEQ runs without interruption ends after exactly the
number of steps R104 gives, in the state of the whole-operation form (R75, R89), and not before. The
internal registers `IPOS`, `OPOS` and `ACC` are left out of the comparison, as the table of R106 does. That
SEQ has the turn when the script is empty is the model's (log 3). -/
def Obligations.OperationAgreesWithFunctions : Prop :=
  ∀ (s : State) (v : Word) (m : List Byte),
    s.busy = false → s.message = some m → s.script = [.host (.wr .cmd v)] →
      (∃ t, run (1 + operationSteps (decodeCommand v) m) s = .next t ∧ t.done = true ∧
        { t with ipos := s.ipos, opos := s.opos, acc := s.acc, script := s.script } =
          wholeOperation (decodeCommand v) m s) ∧
      ∀ k, 1 ≤ k → k ≤ operationSteps (decodeCommand v) m →
        ∃ u, run k s = .next u ∧ u.busy = true ∧ u.done = false

/-- 42_sequencer_host.md R106, U13: whatever transactions and turns of SEQ come after an accepted start, with
no reset among them, a state with `DONE = 1` is reached, unless the host reads a buffer cell that has no
value; and the first such state holds the whole-operation form's result. The internal registers are left
out of the comparison, as the table of R106 does. The model's are: that SEQ has the turn when the script is
empty (log 3), on which reaching `DONE` rests; one turn of SEQ between two polls of `WAIT` (log 8); and the
refusal of a read of a cell without a value (log 6). -/
def Obligations.AnyInterleavingAgreesWithFunctions : Prop :=
  ∀ (s : State) (v : Word) (m : List Byte) (es : List Event),
    s.busy = false → s.message = some m → s.script = .host (.wr .cmd v) :: es → .reset ∉ es →
      (∃ k, (∃ t, run (k + 1) s = .next t ∧ t.done = true) ∨
        (∃ a, .host (.ri a) ∈ es ∧ s.ibuf.read a.toNat = none ∧
          run (k + 1) s = .refused (.unwrittenIbuf a.toNat)) ∨
        ∃ a, .host (.rb a) ∈ es ∧ run (k + 1) s = .refused (.unwrittenObuf a.toNat)) ∧
      ∀ (t : State) (k : Nat), run (k + 1) s = .next t → t.done = true →
        (∀ j u, 1 ≤ j → j ≤ k → run j s = .next u → u.done = false) →
          { t with ipos := s.ipos, opos := s.opos, acc := s.acc, script := s.script,
                   replies := s.replies } = wholeOperation (decodeCommand v) m s

/-- 42_sequencer_host.md R107: from every state of a running operation whose message has been written, SEQ
ends it within the bound R107 gives. That SEQ has the turn when the script is empty is the model's (log 3). -/
def Obligations.RunningOperationEnds : Prop :=
  ∀ (s : State) (m : List Byte), Inv s → s.busy = true → s.message = some m → s.script = [] →
    ∃ n t, n ≤ (s.len.toNat - s.ipos.toNat) / s.op.groupIn + 1 ∧ run n s = .next t ∧ t.done = true ∧
      t.busy = false

/-- 42_sequencer_host.md R105: no event but reset changes the input of a running operation. -/
def Obligations.RunningInputIsFrozen : Prop :=
  ∀ s t : State, s.busy = true → nextEvent s ≠ .reset → step s = .next t →
    t.op = s.op ∧ t.len = s.len ∧ t.ibuf = s.ibuf

/-- 10_state.md R16, R20, 60_exceptions.md R124 and D25: with `BUSY = 0` nothing but a start or a reset
changes the status, the result or the internal registers. -/
def Obligations.ResultsAreSticky : Prop :=
  ∀ s t : State, s.busy = false → nextEvent s ≠ .reset → (∀ v, nextEvent s ≠ .host (.wr .cmd v)) →
    step s = .next t →
      t.op = s.op ∧ t.busy = false ∧ t.done = s.done ∧ t.err = s.err ∧ t.olen = s.olen ∧
        t.erridx = s.erridx ∧ t.ipos = s.ipos ∧ t.opos = s.opos ∧ t.acc = s.acc ∧ t.obuf = s.obuf

/-- 20_memory.md R39: the access rights. No transaction faults, and a write to a read-only or reserved
register changes nothing. Only SEQ and reset change `OBUF`; only the host and reset change `IBUF`, `LEN` and
`OP`; the status and result registers change only by SEQ, by a start or by reset. -/
def Obligations.AccessRights : Prop :=
  (∀ (s : State) (x : Txn) (f : Fault), nextEvent s = .host x → step s ≠ .fault f) ∧
  (∀ (s : State) (r : Reg) (v : Word), nextEvent s = .host (.wr r v) → r ≠ .cmd → r ≠ .len →
    step s = .next (popEvent s)) ∧
  ∀ s t : State, step s = .next t → nextEvent s ≠ .reset →
    (t.obuf ≠ s.obuf → nextEvent s = .seq ∧ s.busy = true) ∧
    (t.ibuf ≠ s.ibuf → s.busy = false ∧ ∃ a v, nextEvent s = .host (.wb a v)) ∧
    (t.len ≠ s.len → s.busy = false ∧ ∃ v, nextEvent s = .host (.wr .len v)) ∧
    (t.op ≠ s.op → s.busy = false ∧ ∃ v, nextEvent s = .host (.wr .cmd v)) ∧
    ((t.busy, t.done, t.err, t.olen, t.erridx) ≠ (s.busy, s.done, s.err, s.olen, s.erridx) →
      (nextEvent s = .seq ∧ s.busy = true) ∨ (s.busy = false ∧ ∃ v, nextEvent s = .host (.wr .cmd v)))

/-- 42_sequencer_host.md R102: the transitions of (`BUSY`, `DONE`). -/
def Obligations.ControlFlow : Prop :=
  ∀ s t : State, Inv s → step s = .next t →
    (nextEvent s = .reset → t.busy = false ∧ t.done = false) ∧
    (s.busy = false → nextEvent s ≠ .reset → (∀ v, nextEvent s ≠ .host (.wr .cmd v)) →
      t.busy = false ∧ t.done = s.done) ∧
    (∀ v, s.busy = false → nextEvent s = .host (.wr .cmd v) →
      (t.busy = true ∧ t.done = false ∧ t.ipos = 0 ∧ s.len.toNat % (decodeCommand v).groupIn = 0) ∨
      (t.busy = false ∧ t.done = true ∧ t.err = .invalidLength ∧
        s.len.toNat % (decodeCommand v).groupIn ≠ 0)) ∧
    (s.busy = true → nextEvent s ≠ .reset → nextEvent s ≠ .seq →
      t.busy = true ∧ t.done = false ∧ t.ipos = s.ipos) ∧
    (s.busy = true → nextEvent s = .seq →
      (s.ipos.toNat < s.len.toNat ∧ t.busy = true ∧ t.done = false ∧
        t.ipos.toNat = s.ipos.toNat + s.op.groupIn) ∨
      (s.ipos.toNat < s.len.toNat ∧ s.op = .decode ∧ t.busy = false ∧ t.done = true ∧
        (t.err = .invalidCharacter ∨ t.err = .valueOverflow)) ∨
      (s.ipos = s.len ∧ t.busy = false ∧ t.done = true ∧ t.err = .noError))

/-- 95_test_vectors.md section 2.5 (D-H1 to D-H6): no other value of `STATUS` can be read. -/
def Obligations.StatusValuesReadable : Prop :=
  ∀ (s t : State) (rest : List Event), Inv s → s.script = .host (.rd .status) :: rest →
    step s = .next t →
      ∃ v : Word, t.replies = .reg v :: s.replies ∧ v.toNat ∈ [0x0, 0x1, 0x2, 0x6, 0xA, 0xE]

/-- 10_state.md R27: an operation's result is a function of the command, `LEN` and the message alone. Both
machines run the command for the number of steps of R104, with `DONE = 0` at each state between, and end with
the same result. That SEQ has the turn when the script is empty is the model's (log 3). -/
def Obligations.ResultIndependentOfHistory : Prop :=
  ∀ (s s' : State) (v : Word) (m : List Byte),
    s.busy = false → s'.busy = false → s.len = s'.len → s.message = some m → s'.message = some m →
    s.script = [.host (.wr .cmd v)] → s'.script = [.host (.wr .cmd v)] →
      (∃ t t' out, run (1 + operationSteps (decodeCommand v) m) s = .next t ∧
        run (1 + operationSteps (decodeCommand v) m) s' = .next t' ∧ t.done = true ∧ t'.done = true ∧
        t.op = decodeCommand v ∧ t'.op = decodeCommand v ∧
        t.err = t'.err ∧ t.erridx = t'.erridx ∧ t.olen = t'.olen ∧
        t.obuf.readN 0 t.olen.toNat = some out ∧ t'.obuf.readN 0 t'.olen.toNat = some out) ∧
      ∀ j, 1 ≤ j → j ≤ operationSteps (decodeCommand v) m →
        ∃ u u', run j s = .next u ∧ run j s' = .next u' ∧ u.done = false ∧ u'.done = false

/-- 41_decoder.md R90, in hardware terms: `ENCODE` runs (its start and the steps of R104) and succeeds; copying
the result into `IBUF` (one host write a character), setting `LEN` to its length and issuing `DECODE`, which
runs too, gives the message back. The text's length must fit `LEN`. That SEQ has the turn when the script is
empty is the model's (log 3). -/
def Obligations.MachineRoundTrips : Prop :=
  ∀ (s : State) (m : List Byte), s.busy = false → s.message = some m → m.length % 4 = 0 →
    5 * (m.length / 4) < 2 ^ Config.AW → s.script = [.host (.wr .cmd 0)] →
      ∃ t text, run (1 + operationSteps .encode m) s = .next t ∧ t.op = .encode ∧ t.done = true ∧
        t.err = .noError ∧ text.length = 5 * (m.length / 4) ∧ t.olen.toNat = text.length ∧
        t.obuf.readN 0 t.olen.toNat = some text ∧
        ∃ t',
          run (text.length + 2 + operationSteps .decode text) { t with
            script := scriptEvents [.load 0 (text.map BitVec.toNat), .decode text.length] } = .next t' ∧
          t'.op = .decode ∧ t'.done = true ∧ t'.err = .noError ∧ t'.olen.toNat = m.length ∧
          t'.obuf.readN 0 t'.olen.toNat = some m
end

