-- ==== Sys2Proof/Laws/Codec.lean ====
section
/-! SUPPORT. What the two group datapaths compute, said once: each function's spec in arithmetic, and the facts
about the ROMs that they rest on (30_encoding.md R54, 40_encoder.md R70 to R72, 41_decoder.md R80 to R86). -/

namespace Sys2Proof.Machine

/-! ## The ROMs -/

/-- An entry of `ENC_ROM` is looked up in `DEC_ROM` as its digit (R54 (a)). -/
theorem decRomLookup_encRom : ∀ d : Fin 85, decRomLookup (encRom d) = some (BitVec.ofNat 8 d.val) := by
  decide +kernel

theorem valid_encRom : ∀ d : Fin 85, valid (encRom d) = true := by
  decide +kernel

/-- A character is valid exactly when it is an entry of `ENC_ROM` (R55). -/
theorem valid_iff (c : Byte) : valid c = true ↔ ∃ d : Fin 85, c = encRom d := by
  constructor
  · intro h
    rw [valid, List.contains_iff_mem] at h
    obtain ⟨n, hn⟩ := List.mem_iff_get.mp h
    exact ⟨n.cast encRomTable_length, hn.symm⟩
  · rintro ⟨d, rfl⟩
    exact valid_encRom d

theorem digitOf_encRom (d : Fin 85) : digitOf (encRom d) = some (BitVec.ofNat 8 d.val) := by
  simp [digitOf, valid_encRom, decRomLookup_encRom]

theorem encRom_injective {d e : Fin 85} (h : encRom d = encRom e) : d = e := by
  have hd := decRomLookup_encRom d
  rw [h, decRomLookup_encRom] at hd
  have := congrArg BitVec.toNat (Option.some.inj hd)
  simp only [BitVec.toNat_ofNat] at this
  omega

/-! ## The encoder's group -/

/-- The group value, most significant byte first; nothing wraps (R33, R70). -/
theorem groupValue_toNat (g : RawGroup) :
    (groupValue g).toNat =
      g.b0.toNat * 16777216 + g.b1.toNat * 65536 + g.b2.toNat * 256 + g.b3.toNat := by
  have := g.b0.isLt; have := g.b1.isLt; have := g.b2.isLt; have := g.b3.isLt
  simp only [groupValue, BitVec.toNat_ofNat]
  omega

theorem digitAt_val (v : BitVec 32) (divisor : Nat) : (digitAt v divisor).val = v.toNat / divisor % 85 := rfl

/-- `ENC_BLOCK` with the divisors written out (R71, R72). -/
theorem encBlock_eq (g : RawGroup) :
    encBlock g =
      ⟨encRom (digitAt (groupValue g) 52200625), encRom (digitAt (groupValue g) 614125),
        encRom (digitAt (groupValue g) 7225), encRom (digitAt (groupValue g) 85),
        encRom (digitAt (groupValue g) 1)⟩ := rfl

/-- The five digits of `R71` represent `V` (R73 item 2). -/
theorem digitsValue_digitAt (v : BitVec 32) :
    digitsValue (digitAt v 52200625) (digitAt v 614125) (digitAt v 7225) (digitAt v 85) (digitAt v 1)
      = v.toNat := by
  have := v.isLt
  simp only [digitsValue, digitAt_val]
  omega

/-- The digits of a value below `2^32` are those of `R71`: the representation is unique (R73 item 2). -/
theorem digitAt_digitsValue (v : BitVec 32) {d0 d1 d2 d3 d4 : Fin 85}
    (h : digitsValue d0 d1 d2 d3 d4 = v.toNat) :
    digitAt v 52200625 = d0 ∧ digitAt v 614125 = d1 ∧ digitAt v 7225 = d2 ∧ digitAt v 85 = d3 ∧
      digitAt v 1 = d4 := by
  have := d0.isLt; have := d1.isLt; have := d2.isLt; have := d3.isLt; have := d4.isLt
  simp only [digitsValue] at h
  simp only [Fin.ext_iff, digitAt_val]
  omega

/-! ## The decoder's group -/

theorem firstInvalid_eq_none_iff (t : TextGroup) :
    firstInvalid t = none ↔
      valid t.c0 = true ∧ valid t.c1 = true ∧ valid t.c2 = true ∧ valid t.c3 = true ∧
        valid t.c4 = true := by
  unfold firstInvalid
  cases valid t.c0 <;> cases valid t.c1 <;> cases valid t.c2 <;> cases valid t.c3 <;>
    cases valid t.c4 <;> simp

/-- `firstInvalid` finds the smallest offset of an invalid character (R82). -/
theorem firstInvalid_eq_some_iff (t : TextGroup) (k : Fin 5) :
    firstInvalid t = some k ↔
      (t.bytes[k.val]?.map valid = some false) ∧
        ∀ j, j < k.val → t.bytes[j]?.map valid = some true := by
  unfold firstInvalid TextGroup.bytes
  constructor
  · intro h
    cases h0 : valid t.c0 <;> cases h1 : valid t.c1 <;> cases h2 : valid t.c2 <;>
      cases h3 : valid t.c3 <;> cases h4 : valid t.c4 <;> simp [h0, h1, h2, h3, h4] at h <;>
      subst h <;> refine ⟨by simp [*], fun j hj => ?_⟩ <;>
      (have hj' : j < 4 := by revert hj; simp; try omega) <;>
      interval_cases j <;> simp_all
  · rintro ⟨hk, hj⟩
    have a0 := hj 0; have a1 := hj 1; have a2 := hj 2; have a3 := hj 3
    fin_cases k <;> simp_all

/-- The digits of a group without an invalid character. -/
theorem exists_digits {t : TextGroup} (h : firstInvalid t = none) :
    ∃ d0 d1 d2 d3 d4, t = textOfDigits d0 d1 d2 d3 d4 := by
  obtain ⟨h0, h1, h2, h3, h4⟩ := (firstInvalid_eq_none_iff t).mp h
  obtain ⟨d0, e0⟩ := (valid_iff _).mp h0
  obtain ⟨d1, e1⟩ := (valid_iff _).mp h1
  obtain ⟨d2, e2⟩ := (valid_iff _).mp h2
  obtain ⟨d3, e3⟩ := (valid_iff _).mp h3
  obtain ⟨d4, e4⟩ := (valid_iff _).mp h4
  refine ⟨d0, d1, d2, d3, d4, ?_⟩
  cases t
  simp_all [textOfDigits]

theorem firstInvalid_textOfDigits (d0 d1 d2 d3 d4 : Fin 85) :
    firstInvalid (textOfDigits d0 d1 d2 d3 d4) = none := by
  rw [firstInvalid_eq_none_iff]
  simp [textOfDigits, valid_encRom]

/-- One turn of the accumulation on a valid character is exact while the sum fits (R83). -/
theorem accStep_toNat (acc : Acc) (d : Fin 85) (h : acc.toNat * 85 + 84 < 2 ^ 33) :
    (accStep acc (encRom d)).toNat = acc.toNat * 85 + d.val := by
  have := d.isLt
  simp only [accStep, digitOf_encRom, Option.getD_some]
  have h85 : (85 : Acc).toNat = 85 := rfl
  have hp : 2 ^ Config.accWidth = 8589934592 := rfl
  rw [BitVec.toNat_add, BitVec.toNat_mul, BitVec.toNat_setWidth, BitVec.toNat_ofNat, h85, hp]
  omega

/-- The accumulator holds the group's value exactly: nothing wraps in 33 bits (R83). -/
theorem accumulate_textOfDigits (d0 d1 d2 d3 d4 : Fin 85) :
    (accumulate (textOfDigits d0 d1 d2 d3 d4)).toNat = digitsValue d0 d1 d2 d3 d4 := by
  have := d0.isLt; have := d1.isLt; have := d2.isLt; have := d3.isLt; have := d4.isLt
  have e0 : (accStep 0 (encRom d0)).toNat = 0 * 85 + d0.val := accStep_toNat 0 d0 (by decide)
  have e1 := accStep_toNat _ d1 (by rw [e0]; omega)
  have e2 := accStep_toNat _ d2 (by rw [e1, e0]; omega)
  have e3 := accStep_toNat _ d3 (by rw [e2, e1, e0]; omega)
  have e4 := accStep_toNat _ d4 (by rw [e3, e2, e1, e0]; omega)
  simp only [accumulate, TextGroup.bytes, textOfDigits, List.foldl]
  rw [e4, e3, e2, e1, e0, digitsValue]
  omega

theorem accAfter_textOfDigits (d0 d1 d2 d3 d4 : Fin 85) :
    accAfter (textOfDigits d0 d1 d2 d3 d4) = accumulate (textOfDigits d0 d1 d2 d3 d4) := by
  simp [accAfter, firstInvalid_textOfDigits]

/-- Extracting the bytes of an assembled value gives the bytes back (R70, R85). -/
theorem valueBytes_groupValue (g : RawGroup) : valueBytes (groupValue g) = g := by
  have := g.b0.isLt; have := g.b1.isLt; have := g.b2.isLt; have := g.b3.isLt
  have hv := groupValue_toNat g
  obtain ⟨b0, b1, b2, b3⟩ := g
  simp only [valueBytes, RawGroup.mk.injEq] at *
  refine ⟨?_, ?_, ?_, ?_⟩ <;> apply BitVec.eq_of_toNat_eq <;> rw [BitVec.toNat_ofNat, hv] <;> omega

/-- Assembling the bytes of a value gives the value back. -/
theorem groupValue_valueBytes (v : BitVec 32) : groupValue (valueBytes v) = v := by
  have := v.isLt
  apply BitVec.eq_of_toNat_eq
  rw [groupValue_toNat]
  simp only [valueBytes, BitVec.toNat_ofNat]
  omega

/-- `DEC_BLOCK` on five valid characters: the range test decides (R84, R86). -/
theorem decBlock_textOfDigits (d0 d1 d2 d3 d4 : Fin 85) :
    decBlock (textOfDigits d0 d1 d2 d3 d4) =
      if 2 ^ 32 ≤ digitsValue d0 d1 d2 d3 d4 then .valueOverflow
      else .ok (valueBytes (BitVec.ofNat 32 (digitsValue d0 d1 d2 d3 d4))) := by
  have h := accumulate_textOfDigits d0 d1 d2 d3 d4
  simp only [decBlock, firstInvalid_textOfDigits, h]
  split
  · rfl
  · congr 2
    apply BitVec.eq_of_toNat_eq
    rw [BitVec.toNat_setWidth, BitVec.toNat_ofNat, h]

/-- `DEC_BLOCK` answers `InvalidCharacter` exactly at the first invalid character (R82, R86). -/
theorem decBlock_eq_invalidCharacter_iff (t : TextGroup) (k : Fin 5) :
    decBlock t = .invalidCharacter k ↔ firstInvalid t = some k := by
  unfold decBlock
  split
  · simp_all
  · split <;> simp_all

/-- `ENC_BLOCK` of a value's bytes, by its digits. -/
theorem encBlock_valueBytes {v : BitVec 32} {d0 d1 d2 d3 d4 : Fin 85}
    (h : digitsValue d0 d1 d2 d3 d4 = v.toNat) :
    encBlock (valueBytes v) = textOfDigits d0 d1 d2 d3 d4 := by
  obtain ⟨e0, e1, e2, e3, e4⟩ := digitAt_digitsValue v h
  rw [encBlock_eq, groupValue_valueBytes, e0, e1, e2, e3, e4, textOfDigits]

theorem encBlock_textOfDigits (g : RawGroup) :
    encBlock g =
      textOfDigits (digitAt (groupValue g) 52200625) (digitAt (groupValue g) 614125)
        (digitAt (groupValue g) 7225) (digitAt (groupValue g) 85) (digitAt (groupValue g) 1) := rfl

end Sys2Proof.Machine
end

