-- ==== Sys2Proof/Laws/Memory.lean ====
section
/-! SUPPORT. The laws of a buffer: a read sees the most recent write to its cell (20_memory.md R40), a write
leaves every other cell alone, and every write keeps the canonical form. -/

namespace Sys2Proof.Machine

namespace Memory

@[simp] theorem read_nil (a : Nat) : Memory.read [] a = none := rfl

theorem read_write_same (m : Memory) (a : Nat) (v : Byte) : (Memory.write m a v).read a = some v := by
  induction m with
  | nil => simp [Memory.write, Memory.read]
  | cons c rest ih =>
    obtain ⟨a', b⟩ := c
    simp only [Memory.write]
    split
    · simp [Memory.read]
    · split
      · simp [Memory.read]
      · simp [Memory.read, *]

theorem read_write_other (m : Memory) {a a' : Nat} (v : Byte) (h : a' ≠ a) :
    (Memory.write m a v).read a' = Memory.read m a' := by
  induction m with
  | nil => simp [Memory.write, Memory.read, h]
  | cons c rest ih =>
    obtain ⟨k, b⟩ := c
    simp only [Memory.write]
    split
    · simp [Memory.read, h]
    · split
      · subst_vars; simp [Memory.read, h]
      · simp [Memory.read, ih]

theorem read_write (m : Memory) (a a' : Nat) (v : Byte) :
    (Memory.write m a v).read a' = if a' = a then some v else Memory.read m a' := by
  split
  · subst_vars; exact read_write_same m _ v
  · exact read_write_other m v ‹_›

/-- What a read answers after bytes were stored at consecutive addresses. -/
theorem read_writeN (m : Memory) (a : Nat) (bs : List Byte) (a' : Nat) :
    (Memory.writeN m a bs).read a' =
      if a ≤ a' ∧ a' < a + bs.length then bs[a' - a]? else Memory.read m a' := by
  induction bs generalizing m a with
  | nil => simp only [Memory.writeN, List.length_nil]; rw [if_neg (by omega)]
  | cons b bs ih =>
    rw [Memory.writeN, ih, read_write, List.length_cons]
    by_cases h : a' = a
    · subst h; rw [if_neg (by omega), if_pos rfl, if_pos (by omega)]; simp
    · by_cases h' : a + 1 ≤ a' ∧ a' < a + 1 + bs.length
      · rw [if_pos h', if_pos (by omega), show a' - a = (a' - (a + 1)) + 1 by omega]; simp
      · rw [if_neg h', if_neg h, if_neg (by omega)]

theorem writeN_append (m : Memory) (a : Nat) (xs ys : List Byte) :
    Memory.writeN m a (xs ++ ys) = Memory.writeN (Memory.writeN m a xs) (a + xs.length) ys := by
  induction xs generalizing m a with
  | nil => rfl
  | cons x xs ih =>
    simp only [List.cons_append, Memory.writeN, ih, List.length_cons]
    congr 1; omega

theorem readN_length {m : Memory} {a n : Nat} {bs : List Byte} (h : m.readN a n = some bs) :
    bs.length = n := by
  induction n generalizing a bs with
  | zero => simp only [Memory.readN, Option.some.injEq] at h; subst h; rfl
  | succ n ih =>
    simp only [Memory.readN] at h
    split at h
    · simp only [Option.some.injEq] at h; subst h; simp [ih ‹_›]
    · simp at h

/-- A block of `n` bytes is read exactly when each of its cells is. -/
theorem readN_eq_some_iff (m : Memory) (a n : Nat) (bs : List Byte) :
    m.readN a n = some bs ↔ bs.length = n ∧ ∀ k, k < n → m.read (a + k) = bs[k]? := by
  induction n generalizing a bs with
  | zero =>
    simp only [Memory.readN, Option.some.injEq, Nat.not_lt_zero, false_implies, implies_true, and_true]
    constructor
    · intro h; simp [← h]
    · intro h; exact (List.length_eq_zero_iff.mp h).symm
  | succ n ih =>
    constructor
    · intro h
      refine ⟨readN_length h, ?_⟩
      simp only [Memory.readN] at h
      split at h
      · rename_i b rest hb hr
        simp only [Option.some.injEq] at h; subst h
        intro k hk
        cases k with
        | zero => simpa using hb
        | succ k =>
          have := ((ih (a + 1) rest).mp hr).2 k (by omega)
          simpa [Nat.add_assoc, Nat.add_comm 1 k] using this
      · simp at h
    · rintro ⟨hl, hr⟩
      match bs, hl with
      | b :: rest, hl =>
        have h0 : m.read a = some b := by simpa using hr 0 (by omega)
        have hrest : m.readN (a + 1) n = some rest :=
          (ih (a + 1) rest).mpr ⟨by simpa using hl, fun k hk => by
            have := hr (k + 1) (by omega)
            simpa [Nat.add_assoc, Nat.add_comm 1 k] using this⟩
        simp [Memory.readN, h0, hrest]

/-- A block is read as its two parts. -/
theorem readN_add (m : Memory) (a n k : Nat) (xs ys : List Byte)
    (hx : m.readN a n = some xs) (hy : m.readN (a + n) k = some ys) :
    m.readN a (n + k) = some (xs ++ ys) := by
  rw [readN_eq_some_iff] at *
  obtain ⟨hxl, hx⟩ := hx
  obtain ⟨hyl, hy⟩ := hy
  refine ⟨by simp [hxl, hyl], fun j hj => ?_⟩
  by_cases h : j < n
  · rw [hx j h, List.getElem?_append_left (by omega)]
  · rw [List.getElem?_append_right (by omega), hxl, ← hy (j - n) (by omega)]
    congr 1; omega

/-- A part of a block that is read is read. -/
theorem readN_sub {m : Memory} {a n : Nat} {xs : List Byte} (h : m.readN a n = some xs) (j k : Nat)
    (hjk : j + k ≤ n) : m.readN (a + j) k = some ((xs.drop j).take k) := by
  rw [readN_eq_some_iff] at *
  obtain ⟨hl, hr⟩ := h
  refine ⟨by simp; omega, fun i hi => ?_⟩
  rw [Nat.add_assoc, hr (j + i) (by omega), List.getElem?_take_of_lt hi, List.getElem?_drop]

/-- Bytes just stored are read back. -/
theorem readN_writeN_same (m : Memory) (a : Nat) (bs : List Byte) :
    (Memory.writeN m a bs).readN a bs.length = some bs := by
  rw [readN_eq_some_iff]
  refine ⟨rfl, fun k hk => ?_⟩
  rw [read_writeN, if_pos (by omega)]
  congr 1; omega

/-- A block apart from the bytes stored reads as before. -/
theorem readN_writeN_apart (m : Memory) (a : Nat) (bs : List Byte) (a' n : Nat)
    (h : a' + n ≤ a ∨ a + bs.length ≤ a') :
    (Memory.writeN m a bs).readN a' n = m.readN a' n := by
  apply Option.ext
  intro xs
  rw [readN_eq_some_iff, readN_eq_some_iff]
  refine and_congr_right fun _ => forall_congr' fun k => ?_
  refine imp_congr_right fun hk => ?_
  rw [read_writeN, if_neg (by omega)]

theorem rising_weaken {lo lo' size : Nat} {m : Memory} (h : lo' ≤ lo)
    (hm : Memory.rising lo size m = true) : Memory.rising lo' size m = true := by
  cases m with
  | nil => rfl
  | cons c rest =>
    obtain ⟨a, b⟩ := c
    simp only [Memory.rising, Bool.and_eq_true, decide_eq_true_eq] at *
    exact ⟨⟨by omega, hm.1.2⟩, hm.2⟩

theorem rising_write {lo size a : Nat} {m : Memory} (v : Byte) (hlo : lo ≤ a) (ha : a < size)
    (hm : Memory.rising lo size m = true) : Memory.rising lo size (Memory.write m a v) = true := by
  induction m generalizing lo with
  | nil => simp [Memory.write, Memory.rising, hlo, ha]
  | cons c rest ih =>
    obtain ⟨k, b⟩ := c
    simp only [Memory.rising, Bool.and_eq_true, decide_eq_true_eq] at hm
    simp only [Memory.write]
    split
    · simp [Memory.rising, hlo, ha, hm.1.2, hm.2]; omega
    · split
      · subst_vars; simp [Memory.rising, hlo, ha, hm.2]
      · simp [Memory.rising, hm.1.1, hm.1.2]
        exact ih (by omega) hm.2

/-- A write inside the buffer keeps the canonical form. -/
theorem wf_write {size a : Nat} {m : Memory} (v : Byte) (ha : a < size) (hm : Memory.wf size m = true) :
    Memory.wf size (Memory.write m a v) = true :=
  rising_write v (Nat.zero_le a) ha hm

/-- Stores inside the buffer keep the canonical form. -/
theorem wf_writeN {size a : Nat} {m : Memory} {bs : List Byte} (ha : a + bs.length ≤ size)
    (hm : Memory.wf size m = true) : Memory.wf size (Memory.writeN m a bs) = true := by
  induction bs generalizing m a with
  | nil => exact hm
  | cons b bs ih =>
    rw [List.length_cons] at ha
    exact ih (by omega) (wf_write b (by omega) hm)

theorem wf_nil (size : Nat) : Memory.wf size [] = true := rfl

theorem read_none_of_lt {lo size a : Nat} {m : Memory} (hm : Memory.rising lo size m = true)
    (h : a < lo) : m.read a = none := by
  induction m generalizing lo with
  | nil => rfl
  | cons c rest ih =>
    obtain ⟨k, b⟩ := c
    simp only [Memory.rising, Bool.and_eq_true, decide_eq_true_eq] at hm
    simp only [Memory.read]
    rw [if_neg (by omega)]
    exact ih hm.2 (by omega)

/-- An address outside the buffer has no cell. -/
theorem read_none_of_size_le {lo size a : Nat} {m : Memory} (hm : Memory.rising lo size m = true)
    (h : size ≤ a) : m.read a = none := by
  induction m generalizing lo with
  | nil => rfl
  | cons c rest ih =>
    obtain ⟨k, b⟩ := c
    simp only [Memory.rising, Bool.and_eq_true, decide_eq_true_eq] at hm
    simp only [Memory.read]
    rw [if_neg (by omega)]
    exact ih hm.2

/-- Equal contents are equal data: two canonical buffers that read the same everywhere are the same
list. -/
theorem ext_of_rising {lo size : Nat} {m m' : Memory} (hm : Memory.rising lo size m = true)
    (hm' : Memory.rising lo size m' = true) (h : ∀ a, m.read a = m'.read a) : m = m' := by
  induction m generalizing lo m' with
  | nil =>
    cases m' with
    | nil => rfl
    | cons c rest =>
      obtain ⟨k, b⟩ := c
      have := h k
      simp [Memory.read] at this
  | cons c rest ih =>
    obtain ⟨k, b⟩ := c
    cases m' with
    | nil => have := h k; simp [Memory.read] at this
    | cons c' rest' =>
      obtain ⟨k', b'⟩ := c'
      simp only [Memory.rising, Bool.and_eq_true, decide_eq_true_eq] at hm hm'
      have hk : k = k' := by
        rcases Nat.lt_trichotomy k k' with hlt | heq | hlt
        · have := h k
          simp only [Memory.read, if_true] at this
          rw [if_neg (by omega), read_none_of_lt hm'.2 (by omega)] at this
          simp at this
        · exact heq
        · have := h k'
          simp only [Memory.read, if_true] at this
          rw [if_neg (by omega), read_none_of_lt hm.2 (by omega)] at this
          simp at this
      subst hk
      have hb : b = b' := by have := h k; simpa [Memory.read] using this
      subst hb
      congr 1
      refine ih hm.2 hm'.2 fun a => ?_
      by_cases ha : a = k
      · subst ha; rw [read_none_of_lt hm.2 (by omega), read_none_of_lt hm'.2 (by omega)]
      · have := h a; simpa [Memory.read, ha] using this

end Memory

end Sys2Proof.Machine
end

