-- ==== Sys2Proof/Laws/Widths.lean ====
section
/-! SUPPORT. The widths and sizes as numerals, for arithmetic (00_scope.md R4, 10_state.md R22). -/

namespace Sys2Proof.Config

/-- `AW` is legal (R4). -/
theorem AW_legal : 5 ≤ AW ∧ AW ≤ 31 := by decide

theorem ibufSize_eq : ibufSize = 65536 := rfl

theorem obufSize_eq : obufSize = 131072 := rfl

theorem two_pow_AW : 2 ^ AW = 65536 := rfl

theorem two_pow_AW_succ : 2 ^ (AW + 1) = 131072 := rfl

end Sys2Proof.Config

namespace Sys2Proof

theorem IAddr.toNat_lt (a : IAddr) : a.toNat < 65536 := a.isLt

theorem OAddr.toNat_lt (a : OAddr) : a.toNat < 131072 := a.isLt

end Sys2Proof
end

