-- ==== Sys2Proof/Laws/State.lean ====
section
/-! SUPPORT. One lemma per field per update of the state, each true by rfl, so that no later proof unfolds a
record update. -/

namespace Sys2Proof.Machine

@[simp] theorem State.reply_op (s : State) (r : Reply) : (s.reply r).op = s.op := rfl
@[simp] theorem State.reply_len (s : State) (r : Reply) : (s.reply r).len = s.len := rfl
@[simp] theorem State.reply_busy (s : State) (r : Reply) : (s.reply r).busy = s.busy := rfl
@[simp] theorem State.reply_done (s : State) (r : Reply) : (s.reply r).done = s.done := rfl
@[simp] theorem State.reply_err (s : State) (r : Reply) : (s.reply r).err = s.err := rfl
@[simp] theorem State.reply_olen (s : State) (r : Reply) : (s.reply r).olen = s.olen := rfl
@[simp] theorem State.reply_erridx (s : State) (r : Reply) : (s.reply r).erridx = s.erridx := rfl
@[simp] theorem State.reply_ipos (s : State) (r : Reply) : (s.reply r).ipos = s.ipos := rfl
@[simp] theorem State.reply_opos (s : State) (r : Reply) : (s.reply r).opos = s.opos := rfl
@[simp] theorem State.reply_acc (s : State) (r : Reply) : (s.reply r).acc = s.acc := rfl
@[simp] theorem State.reply_ibuf (s : State) (r : Reply) : (s.reply r).ibuf = s.ibuf := rfl
@[simp] theorem State.reply_obuf (s : State) (r : Reply) : (s.reply r).obuf = s.obuf := rfl
@[simp] theorem State.reply_script (s : State) (r : Reply) : (s.reply r).script = s.script := rfl
@[simp] theorem State.reply_replies (s : State) (r : Reply) : (s.reply r).replies = r :: s.replies := rfl

@[simp] theorem raise_op (k : ErrKind) (idx : IAddr) (s : State) : (raise k idx s).op = s.op := rfl
@[simp] theorem raise_len (k : ErrKind) (idx : IAddr) (s : State) : (raise k idx s).len = s.len := rfl
@[simp] theorem raise_busy (k : ErrKind) (idx : IAddr) (s : State) : (raise k idx s).busy = false := rfl
@[simp] theorem raise_done (k : ErrKind) (idx : IAddr) (s : State) : (raise k idx s).done = true := rfl
@[simp] theorem raise_err (k : ErrKind) (idx : IAddr) (s : State) : (raise k idx s).err = k := rfl
@[simp] theorem raise_olen (k : ErrKind) (idx : IAddr) (s : State) : (raise k idx s).olen = 0 := rfl
@[simp] theorem raise_erridx (k : ErrKind) (idx : IAddr) (s : State) : (raise k idx s).erridx = idx := rfl
@[simp] theorem raise_ipos (k : ErrKind) (idx : IAddr) (s : State) : (raise k idx s).ipos = s.ipos := rfl
@[simp] theorem raise_opos (k : ErrKind) (idx : IAddr) (s : State) : (raise k idx s).opos = s.opos := rfl
@[simp] theorem raise_acc (k : ErrKind) (idx : IAddr) (s : State) : (raise k idx s).acc = s.acc := rfl
@[simp] theorem raise_ibuf (k : ErrKind) (idx : IAddr) (s : State) : (raise k idx s).ibuf = s.ibuf := rfl
@[simp] theorem raise_obuf (k : ErrKind) (idx : IAddr) (s : State) : (raise k idx s).obuf = s.obuf := rfl
@[simp] theorem raise_script (k : ErrKind) (idx : IAddr) (s : State) : (raise k idx s).script = s.script := rfl
@[simp] theorem raise_replies (k : ErrKind) (idx : IAddr) (s : State) : (raise k idx s).replies = s.replies := rfl

@[simp] theorem clearForStart_op (s : State) : (clearForStart s).op = s.op := rfl
@[simp] theorem clearForStart_len (s : State) : (clearForStart s).len = s.len := rfl
@[simp] theorem clearForStart_busy (s : State) : (clearForStart s).busy = s.busy := rfl
@[simp] theorem clearForStart_done (s : State) : (clearForStart s).done = false := rfl
@[simp] theorem clearForStart_err (s : State) : (clearForStart s).err = .noError := rfl
@[simp] theorem clearForStart_olen (s : State) : (clearForStart s).olen = 0 := rfl
@[simp] theorem clearForStart_erridx (s : State) : (clearForStart s).erridx = 0 := rfl
@[simp] theorem clearForStart_ipos (s : State) : (clearForStart s).ipos = 0 := rfl
@[simp] theorem clearForStart_opos (s : State) : (clearForStart s).opos = 0 := rfl
@[simp] theorem clearForStart_acc (s : State) : (clearForStart s).acc = 0 := rfl
@[simp] theorem clearForStart_ibuf (s : State) : (clearForStart s).ibuf = s.ibuf := rfl
@[simp] theorem clearForStart_obuf (s : State) : (clearForStart s).obuf = s.obuf := rfl
@[simp] theorem clearForStart_script (s : State) : (clearForStart s).script = s.script := rfl
@[simp] theorem clearForStart_replies (s : State) : (clearForStart s).replies = s.replies := rfl

@[simp] theorem resetEvent_op (s : State) : (resetEvent s).op = .encode := rfl
@[simp] theorem resetEvent_len (s : State) : (resetEvent s).len = 0 := rfl
@[simp] theorem resetEvent_busy (s : State) : (resetEvent s).busy = false := rfl
@[simp] theorem resetEvent_done (s : State) : (resetEvent s).done = false := rfl
@[simp] theorem resetEvent_err (s : State) : (resetEvent s).err = .noError := rfl
@[simp] theorem resetEvent_olen (s : State) : (resetEvent s).olen = 0 := rfl
@[simp] theorem resetEvent_erridx (s : State) : (resetEvent s).erridx = 0 := rfl
@[simp] theorem resetEvent_ipos (s : State) : (resetEvent s).ipos = 0 := rfl
@[simp] theorem resetEvent_opos (s : State) : (resetEvent s).opos = 0 := rfl
@[simp] theorem resetEvent_acc (s : State) : (resetEvent s).acc = 0 := rfl
@[simp] theorem resetEvent_ibuf (s : State) : (resetEvent s).ibuf = [] := rfl
@[simp] theorem resetEvent_obuf (s : State) : (resetEvent s).obuf = [] := rfl
@[simp] theorem resetEvent_script (s : State) : (resetEvent s).script = s.script := rfl
@[simp] theorem resetEvent_replies (s : State) : (resetEvent s).replies = s.replies := rfl

@[simp] theorem finish_op (s : State) : (finish s).op = s.op := rfl
@[simp] theorem finish_len (s : State) : (finish s).len = s.len := rfl
@[simp] theorem finish_busy (s : State) : (finish s).busy = false := rfl
@[simp] theorem finish_done (s : State) : (finish s).done = true := rfl
@[simp] theorem finish_err (s : State) : (finish s).err = s.err := rfl
@[simp] theorem finish_olen (s : State) : (finish s).olen = s.opos := rfl
@[simp] theorem finish_erridx (s : State) : (finish s).erridx = s.erridx := rfl
@[simp] theorem finish_ipos (s : State) : (finish s).ipos = s.ipos := rfl
@[simp] theorem finish_opos (s : State) : (finish s).opos = s.opos := rfl
@[simp] theorem finish_acc (s : State) : (finish s).acc = s.acc := rfl
@[simp] theorem finish_ibuf (s : State) : (finish s).ibuf = s.ibuf := rfl
@[simp] theorem finish_obuf (s : State) : (finish s).obuf = s.obuf := rfl
@[simp] theorem finish_script (s : State) : (finish s).script = s.script := rfl
@[simp] theorem finish_replies (s : State) : (finish s).replies = s.replies := rfl

@[simp] theorem popEvent_op (s : State) : (popEvent s).op = s.op := rfl
@[simp] theorem popEvent_len (s : State) : (popEvent s).len = s.len := rfl
@[simp] theorem popEvent_busy (s : State) : (popEvent s).busy = s.busy := rfl
@[simp] theorem popEvent_done (s : State) : (popEvent s).done = s.done := rfl
@[simp] theorem popEvent_err (s : State) : (popEvent s).err = s.err := rfl
@[simp] theorem popEvent_olen (s : State) : (popEvent s).olen = s.olen := rfl
@[simp] theorem popEvent_erridx (s : State) : (popEvent s).erridx = s.erridx := rfl
@[simp] theorem popEvent_ipos (s : State) : (popEvent s).ipos = s.ipos := rfl
@[simp] theorem popEvent_opos (s : State) : (popEvent s).opos = s.opos := rfl
@[simp] theorem popEvent_acc (s : State) : (popEvent s).acc = s.acc := rfl
@[simp] theorem popEvent_ibuf (s : State) : (popEvent s).ibuf = s.ibuf := rfl
@[simp] theorem popEvent_obuf (s : State) : (popEvent s).obuf = s.obuf := rfl
@[simp] theorem popEvent_script (s : State) : (popEvent s).script = s.script.tail := rfl
@[simp] theorem popEvent_replies (s : State) : (popEvent s).replies = s.replies := rfl

/-- A start with a legal length leaves a running operation (R97). -/
theorem start_of_legal {i : Instr} {s : State} (h : lengthLegal i s.len = true) :
    start i s = { clearForStart s with op := i, busy := true } := by
  simp [start, h]

/-- A start with an illegal length ends at once (R97, R116). -/
theorem start_of_illegal {i : Instr} {s : State} (h : lengthLegal i s.len = false) :
    start i s = raise .invalidLength 0 { clearForStart s with op := i } := by
  simp [start, h]

/-- What a start leaves as it was (R97). -/
theorem start_keeps (i : Instr) (s : State) :
    (start i s).op = i ∧ (start i s).len = s.len ∧ (start i s).ibuf = s.ibuf ∧
      (start i s).obuf = s.obuf ∧ (start i s).script = s.script ∧ (start i s).replies = s.replies := by
  cases h : lengthLegal i s.len
  · simp [start_of_illegal h]
  · simp [start_of_legal h]

end Sys2Proof.Machine
end

