-- ==== Sys2Proof/Laws/Groups.lean ====
section
/-! SUPPORT. What a sequencer step can do, said once: each shared operation's lemma says when it goes on and with
which state, and when it stops and why (42_sequencer_host.md R97 to R101). -/

namespace Sys2Proof.Machine

open Host (Outcome)

/-! ## Stopping or going on -/

@[simp] theorem toOutcome_ok (s : State) : toOutcome (.ok s) = .next s := rfl

@[simp] theorem toOutcome_error_fault (r : Fault) : toOutcome (.error (.fault r)) = .fault r := rfl

@[simp] theorem toOutcome_error_refused (r : Refusal) : toOutcome (.error (.refused r)) = .refused r := rfl

theorem toOutcome_eq_next {e : Except Stop State} {t : State} : toOutcome e = .next t ↔ e = .ok t := by
  cases e with
  | ok s => simp
  | error x => cases x <;> simp

theorem toOutcome_eq_fault {e : Except Stop State} {r : Fault} :
    toOutcome e = .fault r ↔ e = .error (.fault r) := by
  cases e with
  | ok s => simp
  | error x => cases x <;> simp

theorem toOutcome_eq_refused {e : Except Stop State} {r : Refusal} :
    toOutcome e = .refused r ↔ e = .error (.refused r) := by
  cases e with
  | ok s => simp
  | error x => cases x <;> simp

/-- A computation that may stop goes on only through a value. -/
theorem bind_eq_ok {α β : Type} {x : Except Stop α} {f : α → Except Stop β} {b : β} :
    (x >>= f) = .ok b ↔ ∃ a, x = .ok a ∧ f a = .ok b := by
  cases x with
  | ok a => exact ⟨fun h => ⟨a, rfl, h⟩, fun ⟨_, h, h'⟩ => by cases h; exact h'⟩
  | error e => exact ⟨fun h => (by cases h), fun ⟨_, h, _⟩ => (by cases h)⟩

/-- A computation stops where its first part stops or, that part answered, where the rest does. -/
theorem bind_eq_error {α β : Type} {x : Except Stop α} {f : α → Except Stop β} {e : Stop} :
    (x >>= f) = .error e ↔ x = .error e ∨ ∃ a, x = .ok a ∧ f a = .error e := by
  cases x with
  | ok a =>
    exact ⟨fun h => .inr ⟨a, rfl, h⟩, fun h => by
      obtain h | ⟨_, h, h'⟩ := h
      · cases h
      · cases h; exact h'⟩
  | error e' =>
    exact ⟨fun h => (by cases h; exact .inl rfl), fun h => by
      obtain h | ⟨_, h, _⟩ := h
      · cases h; rfl
      · cases h⟩

/-! ## Reading a group -/

theorem readIbuf_eq_ok {s : State} {a : Nat} {b : Byte} :
    readIbuf s a = .ok b ↔ a < Config.ibufSize ∧ s.ibuf.read a = some b := by
  unfold readIbuf
  split
  · split <;> simp_all
  · simp_all

/-- A read of `IBUF` stops for an address outside it, or for a cell not written since reset. -/
theorem readIbuf_eq_error {s : State} {a : Nat} {e : Stop} :
    readIbuf s a = .error e ↔
      (a < Config.ibufSize ∧ s.ibuf.read a = none ∧ e = .refused (.unwrittenIbuf a)) ∨
        (Config.ibufSize ≤ a ∧ e = .fault .ibufRange) := by
  unfold readIbuf
  by_cases ha : a < Config.ibufSize
  · cases hr : s.ibuf.read a <;> simp [ha, eq_comm]
  · simp [ha, Nat.le_of_not_lt ha, eq_comm]

/-- The four reads of an encode group step answer exactly the four written cells at `IPOS` (R99). -/
theorem readRawGroup_eq_ok {s : State} {g : RawGroup} :
    readRawGroup s = .ok g ↔
      s.ipos.toNat + 4 ≤ Config.ibufSize ∧ s.ibuf.readN s.ipos.toNat 4 = some g.bytes := by
  rw [Memory.readN_eq_some_iff]
  unfold readRawGroup
  simp only [bind_eq_ok, readIbuf_eq_ok, pure, Except.pure, Except.ok.injEq]
  constructor
  · rintro ⟨b0, ⟨-, h0⟩, b1, ⟨-, h1⟩, b2, ⟨-, h2⟩, b3, ⟨hb, h3⟩, rfl⟩
    refine ⟨by omega, rfl, fun k hk => ?_⟩
    interval_cases k <;> simpa [RawGroup.bytes]
  · rintro ⟨hb, -, h⟩
    have h0 := h 0 (by omega); have h1 := h 1 (by omega)
    have h2 := h 2 (by omega); have h3 := h 3 (by omega)
    exact ⟨g.b0, ⟨by omega, h0⟩, g.b1, ⟨by omega, h1⟩, g.b2, ⟨by omega, h2⟩, g.b3, ⟨by omega, h3⟩, rfl⟩

/-- The five reads of a decode group step answer exactly the five written cells at `IPOS` (R100). -/
theorem readTextGroup_eq_ok {s : State} {g : TextGroup} :
    readTextGroup s = .ok g ↔
      s.ipos.toNat + 5 ≤ Config.ibufSize ∧ s.ibuf.readN s.ipos.toNat 5 = some g.bytes := by
  rw [Memory.readN_eq_some_iff]
  unfold readTextGroup
  simp only [bind_eq_ok, readIbuf_eq_ok, pure, Except.pure, Except.ok.injEq]
  constructor
  · rintro ⟨b0, ⟨-, h0⟩, b1, ⟨-, h1⟩, b2, ⟨-, h2⟩, b3, ⟨-, h3⟩, b4, ⟨hb, h4⟩, rfl⟩
    refine ⟨by omega, rfl, fun k hk => ?_⟩
    interval_cases k <;> simpa [TextGroup.bytes]
  · rintro ⟨hb, -, h⟩
    have h0 := h 0 (by omega); have h1 := h 1 (by omega)
    have h2 := h 2 (by omega); have h3 := h 3 (by omega); have h4 := h 4 (by omega)
    exact ⟨g.c0, ⟨by omega, h0⟩, g.c1, ⟨by omega, h1⟩, g.c2, ⟨by omega, h2⟩, g.c3, ⟨by omega, h3⟩,
      g.c4, ⟨by omega, h4⟩, rfl⟩

/-- The reads of an encode group step stop at the first cell without a value, or outside `IBUF`. -/
theorem readRawGroup_eq_error {s : State} {e : Stop} (h : readRawGroup s = .error e) :
    ∃ k, k < 4 ∧ (∀ j, j < k → s.ibuf.read (s.ipos.toNat + j) ≠ none) ∧
      ((s.ipos.toNat + k < Config.ibufSize ∧ s.ibuf.read (s.ipos.toNat + k) = none ∧
          e = .refused (.unwrittenIbuf (s.ipos.toNat + k))) ∨
        (Config.ibufSize ≤ s.ipos.toNat + k ∧ e = .fault .ibufRange)) := by
  unfold readRawGroup at h
  simp only [bind_eq_error, readIbuf_eq_error, readIbuf_eq_ok, pure, Except.pure, reduceCtorEq,
    and_false, exists_false, or_false] at h
  obtain h | ⟨b0, ⟨-, h0⟩, h | ⟨b1, ⟨-, h1⟩, h | ⟨b2, ⟨-, h2⟩, h⟩⟩⟩ := h
  · exact ⟨0, by omega, fun j hj => by omega, h⟩
  · refine ⟨1, by omega, fun j hj => ?_, h⟩
    obtain rfl : j = 0 := by omega
    exact h0 ▸ Option.some_ne_none b0
  · refine ⟨2, by omega, fun j hj => ?_, h⟩
    interval_cases j <;> simp_all
  · refine ⟨3, by omega, fun j hj => ?_, h⟩
    interval_cases j <;> simp_all

/-- The reads of a decode group step stop at the first cell without a value, or outside `IBUF`. -/
theorem readTextGroup_eq_error {s : State} {e : Stop} (h : readTextGroup s = .error e) :
    ∃ k, k < 5 ∧ (∀ j, j < k → s.ibuf.read (s.ipos.toNat + j) ≠ none) ∧
      ((s.ipos.toNat + k < Config.ibufSize ∧ s.ibuf.read (s.ipos.toNat + k) = none ∧
          e = .refused (.unwrittenIbuf (s.ipos.toNat + k))) ∨
        (Config.ibufSize ≤ s.ipos.toNat + k ∧ e = .fault .ibufRange)) := by
  unfold readTextGroup at h
  simp only [bind_eq_error, readIbuf_eq_error, readIbuf_eq_ok, pure, Except.pure, reduceCtorEq,
    and_false, exists_false, or_false] at h
  obtain h | ⟨b0, ⟨-, h0⟩, h | ⟨b1, ⟨-, h1⟩, h | ⟨b2, ⟨-, h2⟩, h | ⟨b3, ⟨-, h3⟩, h⟩⟩⟩⟩ := h
  · exact ⟨0, by omega, fun j hj => by omega, h⟩
  · refine ⟨1, by omega, fun j hj => ?_, h⟩
    obtain rfl : j = 0 := by omega
    exact h0 ▸ Option.some_ne_none b0
  · refine ⟨2, by omega, fun j hj => ?_, h⟩
    interval_cases j <;> simp_all
  · refine ⟨3, by omega, fun j hj => ?_, h⟩
    interval_cases j <;> simp_all
  · refine ⟨4, by omega, fun j hj => ?_, h⟩
    interval_cases j <;> simp_all

theorem writeObufGroup_eq_ok {s t : State} {bs : List Byte} :
    writeObufGroup s bs = .ok t ↔
      s.opos.toNat + bs.length ≤ Config.obufSize ∧
        t = { s with obuf := s.obuf.writeN s.opos.toNat bs } := by
  unfold writeObufGroup
  split <;> simp_all [eq_comm]

theorem writeObufGroup_eq_error {s : State} {bs : List Byte} {e : Stop} :
    writeObufGroup s bs = .error e ↔
      Config.obufSize < s.opos.toNat + bs.length ∧ e = .fault .obufRange := by
  unfold writeObufGroup
  split <;> simp_all [eq_comm]

/-! ## The group steps -/

/-- The encode group step goes on exactly with its group converted (R99). -/
theorem encodeGroup_eq_next {s t : State} :
    encodeGroup s = .next t ↔
      ∃ g, s.ipos.toNat + 4 ≤ Config.ibufSize ∧ s.ibuf.readN s.ipos.toNat 4 = some g.bytes ∧
        s.opos.toNat + 5 ≤ Config.obufSize ∧
        t = { s with obuf := s.obuf.writeN s.opos.toNat (encBlock g).bytes,
                     ipos := s.ipos + 4, opos := s.opos + 5 } := by
  unfold encodeGroup
  rw [toOutcome_eq_next]
  simp only [bind_eq_ok, readRawGroup_eq_ok, writeObufGroup_eq_ok, pure, Except.pure, Except.ok.injEq]
  constructor
  · rintro ⟨g, ⟨hb, hr⟩, u, ⟨hw, rfl⟩, rfl⟩
    exact ⟨g, hb, hr, hw, rfl⟩
  · rintro ⟨g, hb, hr, hw, rfl⟩
    exact ⟨g, ⟨hb, hr⟩, _, ⟨hw, rfl⟩, rfl⟩

/-- What a decode group step makes of the group it has read (R100): an error recorded with no cell
written and no advance, or the group converted. -/
def decodeEffect (s : State) (c : TextGroup) : State :=
  match decBlock c with
  | .invalidCharacter k =>
    raise .invalidCharacter (BitVec.ofNat Config.AW (s.ipos.toNat + k)) { s with acc := accAfter c }
  | .valueOverflow => raise .valueOverflow s.ipos { s with acc := accAfter c }
  | .ok g =>
    { s with acc := accAfter c, obuf := s.obuf.writeN s.opos.toNat g.bytes,
             ipos := s.ipos + 5, opos := s.opos + 4 }

/-- The decode group step goes on exactly with `decodeEffect` (R100). -/
theorem decodeGroup_eq_next {s t : State} :
    decodeGroup s = .next t ↔
      ∃ c, s.ipos.toNat + 5 ≤ Config.ibufSize ∧ s.ibuf.readN s.ipos.toNat 5 = some c.bytes ∧
        ((∃ g, decBlock c = .ok g) → s.opos.toNat + 4 ≤ Config.obufSize) ∧ t = decodeEffect s c := by
  unfold decodeGroup decodeEffect
  rw [toOutcome_eq_next]
  simp only [bind_eq_ok, readTextGroup_eq_ok]
  refine exists_congr fun c => ?_
  rw [and_assoc]
  refine and_congr_right fun _ => and_congr_right fun _ => ?_
  cases hd : decBlock c with
  | invalidCharacter k => simp [pure, Except.pure, eq_comm]
  | valueOverflow => simp [pure, Except.pure, eq_comm]
  | ok g =>
    simp only [bind_eq_ok, writeObufGroup_eq_ok, pure, Except.pure, Except.ok.injEq,
      BlockResult.ok.injEq, exists_eq', forall_const]
    constructor
    · rintro ⟨u, ⟨hw, rfl⟩, rfl⟩; exact ⟨hw, rfl⟩
    · rintro ⟨hw, rfl⟩; exact ⟨_, ⟨hw, rfl⟩, rfl⟩

/-- The group step of a command (R98). -/
def groupStep : Instr → State → Outcome State Fault Refusal
  | .encode => encodeGroup
  | .decode => decodeGroup

/-- `exec` with both commands at once: start when `BUSY = 0`, else the step R98 chooses. -/
theorem exec_eq (i : Instr) (s : State) :
    exec i s = if s.busy then advance (groupStep i) s else .next (start i s) := by
  cases i <;> rfl

theorem exec_idle (i : Instr) {s : State} (h : s.busy = false) : exec i s = .next (start i s) := by
  simp [exec_eq, h]

theorem exec_finish (i : Instr) {s : State} (h : s.busy = true) (he : s.ipos = s.len) :
    exec i s = .next (finish s) := by
  simp [exec_eq, h, advance, he]

theorem exec_group (i : Instr) {s : State} (h : s.busy = true) (hl : s.ipos.toNat < s.len.toNat) :
    exec i s = groupStep i s := by
  have hne : s.ipos ≠ s.len := fun e => by rw [e] at hl; omega
  have hlt : s.ipos < s.len := hl
  simp [exec_eq, h, advance, hne, hlt]

/-- What a move of a command can do when it goes on. -/
theorem exec_eq_next {i : Instr} {s t : State} (h : exec i s = .next t) :
    (s.busy = false ∧ t = start i s) ∨
      (s.busy = true ∧ s.ipos = s.len ∧ t = finish s) ∨
      (s.busy = true ∧ s.ipos.toNat < s.len.toNat ∧ groupStep i s = .next t) := by
  cases hb : s.busy
  · rw [exec_idle i hb] at h; cases h; exact .inl ⟨rfl, rfl⟩
  · rcases Nat.lt_trichotomy s.ipos.toNat s.len.toNat with hl | he | hg
    · rw [exec_group i hb hl] at h; exact .inr (.inr ⟨rfl, hl, h⟩)
    · have he := BitVec.eq_of_toNat_eq he
      rw [exec_finish i hb he] at h; cases h; exact .inr (.inl ⟨rfl, he, rfl⟩)
    · have hne : s.ipos ≠ s.len := fun e => by rw [e] at hg; omega
      have hlt : ¬ s.ipos < s.len := fun hl => by
        have : s.ipos.toNat < s.len.toNat := hl
        omega
      simp [exec_eq, hb, advance, hne, hlt] at h

/-- A running move keeps the operation, its input and what is not the CORE's (R105). -/
theorem exec_running_keeps {s t : State} (hb : s.busy = true) (h : exec s.op s = .next t) :
    t.op = s.op ∧ t.len = s.len ∧ t.ibuf = s.ibuf ∧ t.script = s.script ∧ t.replies = s.replies := by
  rcases exec_eq_next h with ⟨h', _⟩ | ⟨_, _, rfl⟩ | ⟨_, _, hg⟩
  · simp [hb] at h'
  · exact ⟨rfl, rfl, rfl, rfl, rfl⟩
  · cases hop : s.op <;> simp only [hop, groupStep] at hg
    · obtain ⟨g, _, _, _, rfl⟩ := encodeGroup_eq_next.mp hg
      exact ⟨hop, rfl, rfl, rfl, rfl⟩
    · obtain ⟨c, _, _, _, rfl⟩ := decodeGroup_eq_next.mp hg
      unfold decodeEffect
      split <;> exact ⟨hop, rfl, rfl, rfl, rfl⟩

end Sys2Proof.Machine
end

