-- ==== Sys2Proof/Laws/Messages.lean ====
section
/-! SUPPORT. The message functions group by group (40_encoder.md R74, 41_decoder.md R88): induction in fours and
in fives, the equation of each loop on one more group, and what the encoder's loop gives. -/

namespace Sys2Proof.Machine

/-- Induction over a message of whole raw groups. -/
theorem rawGroups_induction {P : List Byte → Prop} (nil : P [])
    (cons : ∀ b0 b1 b2 b3 rest, P rest → P (b0 :: b1 :: b2 :: b3 :: rest)) :
    ∀ m : List Byte, m.length % 4 = 0 → P m
  | [], _ => nil
  | [_], h | [_, _], h | [_, _, _], h => by simp at h
  | b0 :: b1 :: b2 :: b3 :: rest, h =>
    cons b0 b1 b2 b3 rest (rawGroups_induction nil cons rest (by simp at h; omega))

/-- Induction over a text of whole text groups. -/
theorem textGroups_induction {P : List Byte → Prop} (nil : P [])
    (cons : ∀ c0 c1 c2 c3 c4 rest, P rest → P (c0 :: c1 :: c2 :: c3 :: c4 :: rest)) :
    ∀ t : List Byte, t.length % 5 = 0 → P t
  | [], _ => nil
  | [_], h | [_, _], h | [_, _, _], h | [_, _, _, _], h => by simp at h
  | c0 :: c1 :: c2 :: c3 :: c4 :: rest, h =>
    cons c0 c1 c2 c3 c4 rest (textGroups_induction nil cons rest (by simp at h; omega))

@[simp] theorem encodeGroups_nil : encodeGroups [] = [] := rfl

theorem encodeGroups_cons (b0 b1 b2 b3 : Byte) (rest : List Byte) :
    encodeGroups (b0 :: b1 :: b2 :: b3 :: rest) =
      (encBlock ⟨b0, b1, b2, b3⟩).bytes ++ encodeGroups rest := rfl

@[simp] theorem decodeGroups_nil (idx : Nat) : decodeGroups idx [] = .ok [] := rfl

theorem decodeGroups_cons (idx : Nat) (c0 c1 c2 c3 c4 : Byte) (rest : List Byte) :
    decodeGroups idx (c0 :: c1 :: c2 :: c3 :: c4 :: rest) =
      match decBlock ⟨c0, c1, c2, c3, c4⟩ with
      | .invalidCharacter k => .error (.invalidCharacter (idx + k))
      | .valueOverflow => .error (.valueOverflow idx)
      | .ok g =>
        match decodeGroups (idx + 5) rest with
        | .ok out => .ok (g.bytes ++ out)
        | .error e => .error e := rfl

theorem z85Encode_eq_ok {m out : List Byte} :
    z85Encode m = .ok out ↔ m.length % 4 = 0 ∧ out = encodeGroups m := by
  unfold z85Encode
  split <;> simp_all [eq_comm]

theorem z85Decode_eq_ok {t out : List Byte} :
    z85Decode t = .ok out ↔ t.length % 5 = 0 ∧ decodeGroups 0 t = .ok out := by
  unfold z85Decode
  split <;> simp_all

/-- The encoder's output, five characters for each group (R74). -/
theorem encodeGroups_length : ∀ m : List Byte, m.length % 4 = 0 →
    (encodeGroups m).length = 5 * (m.length / 4) := by
  apply rawGroups_induction
  · rfl
  · intro b0 b1 b2 b3 rest ih
    simp [encodeGroups_cons, TextGroup.bytes, ih]
    omega

/-- No group of the empty text overflows. -/
theorem not_groupOverflows_nil (g : Nat) : ¬ GroupOverflows [] g := by
  rintro ⟨_, _, _, _, _, h, _⟩
  simp [TextGroup.bytes] at h

/-- Whether the first group, of valid characters, overflows is its value's matter. -/
theorem groupOverflows_zero {d0 d1 d2 d3 d4 : Fin 85} {rest : List Byte} :
    GroupOverflows (encRom d0 :: encRom d1 :: encRom d2 :: encRom d3 :: encRom d4 :: rest) 0 ↔
      2 ^ 32 ≤ digitsValue d0 d1 d2 d3 d4 := by
  constructor
  · rintro ⟨e0, e1, e2, e3, e4, h, hv⟩
    simp [textOfDigits, TextGroup.bytes] at h
    obtain ⟨h0, h1, h2, h3, h4⟩ := h
    rwa [encRom_injective h0, encRom_injective h1, encRom_injective h2, encRom_injective h3,
      encRom_injective h4]
  · exact fun h => ⟨d0, d1, d2, d3, d4, rfl, h⟩

/-- A later group of a text is a group of what follows the first. -/
theorem groupOverflows_succ {c0 c1 c2 c3 c4 : Byte} {rest : List Byte} {g : Nat} :
    GroupOverflows (c0 :: c1 :: c2 :: c3 :: c4 :: rest) (g + 1) ↔ GroupOverflows rest g := by
  unfold GroupOverflows
  rw [Nat.mul_succ]
  simp

end Sys2Proof.Machine
end

