-- ==== Sys2Proof/Laws/PerInstr.lean ====
section
/-! SUPPORT. The statements made for every command as syntax, one lemma per constructor, and what the decoder reads
from a word in arithmetic (30_encoding.md R60, R61). -/

namespace Sys2Proof

/-- The command a word selects, by its parity (R61, R64). -/
theorem decodeCommand_eq (v : Word) :
    decodeCommand v = if v.toNat % 2 = 1 then .decode else .encode := by
  have h : v.getLsbD 0 = decide (v.toNat % 2 = 1) := by
    rw [BitVec.getLsbD, Nat.testBit_zero]
  simp only [decodeCommand, h, decide_eq_true_eq]

/-- The parity of a command's word is its `OP` bit, whatever the ignored bits hold (R60). -/
theorem encodeCommand_mod_two (ignored : BitVec 31) (i : Instr) :
    (encodeCommand ignored i).toNat % 2 = i.opBit.toNat := by
  have hb := i.opBit.isLt
  have h : (encodeCommand ignored i).toNat = ignored.toNat * 2 + i.opBit.toNat := by
    rw [encodeCommand, BitVec.toNat_append, Nat.shiftLeft_eq, Nat.pow_one, Nat.mul_comm,
      ← Nat.two_pow_add_eq_or_of_lt (i := 1) hb, Nat.pow_one, Nat.mul_comm]
  rw [h]
  omega

end Sys2Proof

namespace Sys2Proof.Laws.WordRoundTrip

/-- A command is decoded from its words, whatever the ignored bits of the command word hold (R60). -/
def Statement (i : Instr) : Prop :=
  ∀ (ignored : BitVec 31), decodeCommand (encodeCommand ignored i) = i

theorem encode : Statement .encode := fun ignored => by
  rw [decodeCommand_eq, encodeCommand_mod_two]
  rfl

theorem decode : Statement .decode := fun ignored => by
  rw [decodeCommand_eq, encodeCommand_mod_two]
  rfl

end Sys2Proof.Laws.WordRoundTrip
end

