-- ==== Sys2Proof/Laws/Steps.lean ====
section
/-! SUPPORT. What an event and a step of the whole machine can do, said once (42_sequencer_host.md R95, R96, R98,
R111): every invariant is derived from these inversion lemmas. -/

namespace Sys2Proof.Machine

open Host (Outcome)

/-- What one event can do when the machine goes on. -/
inductive Moved (e : Event) (s t : State) : Prop where
  | started (v : Word) (he : e = .host (.wr .cmd v)) (hb : s.busy = false)
      (ht : t = start (decodeCommand v) s)
  | lengthWritten (v : Word) (he : e = .host (.wr .len v)) (hb : s.busy = false)
      (ht : t = { s with len := v.setWidth Config.AW })
  | inputWritten (a : IAddr) (v : Byte) (he : e = .host (.wb a v)) (hb : s.busy = false)
      (ht : t = { s with ibuf := s.ibuf.write a.toNat v })
  | replied (r : Reply)
      (he : (∃ x, e = .host (.rd x)) ∨ (∃ a, e = .host (.ri a)) ∨ ∃ a, e = .host (.rb a))
      (ht : t = s.reply r)
  | polled (he : e = .wait) (ht : t = pollDone s)
  | sequenced (he : e = .seq) (hb : s.busy = true) (ht : exec s.op s = .next t)
  | wasReset (he : e = .reset) (ht : t = resetEvent s)
  | nothing
      (he : (e = .seq ∧ s.busy = false) ∨
        (∃ r v, e = .host (.wr r v) ∧ (s.busy = true ∨ (r ≠ .cmd ∧ r ≠ .len))) ∨
        ∃ a b, e = .host (.wb a b) ∧ s.busy = true)
      (ht : t = s)

/-- The inversion of an event. -/
theorem perform_eq_next {e : Event} {s t : State} (h : perform e s = .next t) : Moved e s t := by
  cases e with
  | reset => cases h; exact .wasReset rfl rfl
  | wait => cases h; exact .polled rfl rfl
  | seq =>
    cases hb : s.busy
    · simp only [perform, seqTurn, hb, Bool.false_eq_true, if_false] at h
      cases h; exact .nothing (.inl ⟨rfl, hb⟩) rfl
    · simp only [perform, seqTurn, hb, if_true] at h
      exact .sequenced rfl hb h
  | host x =>
    cases x with
    | rd r => cases h; exact .replied _ (.inl ⟨r, rfl⟩) rfl
    | ri a =>
      simp only [perform, transact] at h
      split at h
      · cases h; exact .replied _ (.inr (.inl ⟨a, rfl⟩)) rfl
      · cases h
    | rb a =>
      simp only [perform, transact] at h
      split at h
      · cases h; exact .replied _ (.inr (.inr ⟨a, rfl⟩)) rfl
      · cases h
    | wb a v =>
      simp only [perform, transact] at h
      cases hb : s.busy <;> simp only [hb, Bool.false_eq_true, if_false, if_true] at h <;> cases h
      · exact .inputWritten a v rfl hb (by simp [hb])
      · exact .nothing (.inr (.inr ⟨a, v, rfl, hb⟩)) rfl
    | wr r v =>
      cases r with
      | cmd =>
        simp only [perform, transact, regWrite] at h
        cases hb : s.busy <;> simp only [hb, Bool.false_eq_true, if_false, if_true] at h
        · rw [exec_idle _ hb] at h; cases h; exact .started v rfl hb rfl
        · cases h; exact .nothing (.inr (.inl ⟨.cmd, v, rfl, .inl hb⟩)) rfl
      | len =>
        simp only [perform, transact, regWrite] at h
        cases hb : s.busy <;> simp only [hb, Bool.false_eq_true, if_false, if_true] at h <;> cases h
        · exact .lengthWritten v rfl hb (by simp [hb])
        · exact .nothing (.inr (.inl ⟨.len, v, rfl, .inl hb⟩)) rfl
      | status | olen | erridx | reserved5 | reserved6 | reserved7 =>
        cases h; exact .nothing (.inr (.inl ⟨_, v, rfl, .inr ⟨by decide, by decide⟩⟩)) rfl

/-- An event stops the machine only in a read of a cell without a value, or in a move of the running
operation. -/
theorem perform_stops {e : Event} {s : State} (h : ∀ t, perform e s ≠ .next t) :
    (∃ a, e = .host (.ri a) ∧ s.ibuf.read a.toNat = none ∧
        perform e s = .refused (.unwrittenIbuf a.toNat)) ∨
      (∃ a, e = .host (.rb a) ∧ s.obuf.read a.toNat = none ∧
        perform e s = .refused (.unwrittenObuf a.toNat)) ∨
      (e = .seq ∧ s.busy = true ∧ perform e s = exec s.op s) := by
  cases e with
  | reset => exact absurd rfl (h (resetEvent s))
  | wait => exact absurd rfl (h (pollDone s))
  | seq =>
    cases hb : s.busy
    · exact absurd (by simp [perform, seqTurn, hb]) (h s)
    · exact .inr (.inr ⟨rfl, rfl, by simp [perform, seqTurn, hb]⟩)
  | host x =>
    cases x with
    | rd r => exact absurd rfl (h _)
    | ri a =>
      cases hr : s.ibuf.read a.toNat with
      | some b => exact absurd (by simp only [perform, transact, hr]) (h (s.reply (.ibuf b)))
      | none => exact .inl ⟨a, rfl, hr, by simp only [perform, transact, hr]⟩
    | rb a =>
      cases hr : s.obuf.read a.toNat with
      | some b => exact absurd (by simp only [perform, transact, hr]) (h (s.reply (.obuf b)))
      | none => exact .inr (.inl ⟨a, rfl, hr, by simp only [perform, transact, hr]⟩)
    | wb a v =>
      cases hb : s.busy
      · exact absurd (by simp only [perform, transact, hb, Bool.false_eq_true, if_false])
          (h { s with ibuf := s.ibuf.write a.toNat v })
      · exact absurd (by simp only [perform, transact, hb, if_true]) (h s)
    | wr r v =>
      cases r with
      | cmd =>
        cases hb : s.busy
        · exact absurd (by simp only [perform, transact, regWrite, hb, exec_idle _ hb,
            Bool.false_eq_true, if_false]) (h (start (decodeCommand v) s))
        · exact absurd (by simp only [perform, transact, regWrite, hb, if_true]) (h s)
      | len =>
        cases hb : s.busy
        · exact absurd (by simp only [perform, transact, regWrite, hb, Bool.false_eq_true, if_false])
            (h { s with len := v.setWidth Config.AW })
        · exact absurd (by simp only [perform, transact, regWrite, hb, if_true]) (h s)
      | status | olen | erridx | reserved5 | reserved6 | reserved7 => exact absurd rfl (h s)

/-- A step performs the next event on the state with that event taken off the script. -/
theorem step_eq_perform (s : State) : step s = perform (nextEvent s) (popEvent s) := by
  obtain ⟨_, _, _, _, _, _, _, _, _, _, _, _, script, _⟩ := s
  cases script <;> rfl

/-- The inversion of a step. -/
theorem step_eq_next {s t : State} (h : step s = .next t) : Moved (nextEvent s) (popEvent s) t :=
  perform_eq_next (step_eq_perform s ▸ h)

@[simp] theorem run_zero (s : State) : run 0 s = .next s := rfl

/-- The first step of a run. -/
theorem run_succ (k : Nat) (s : State) :
    run (k + 1) s =
      match step s with
      | .next t => run k t
      | .fault r => .fault r
      | .refused r => .refused r := rfl

theorem core_run_next (M : Host.Core) (k : Nat) (s t : M.State) (h : M.step s = .next t) :
    M.run (k + 1) s = M.run k t := by
  rw [Host.Core.run, h]

theorem core_run_fault (M : Host.Core) (k : Nat) (s : M.State) (t) (h : M.step s = .fault t) :
    M.run (k + 1) s = .fault t := by
  rw [Host.Core.run, h]

theorem core_run_refused (M : Host.Core) (k : Nat) (s : M.State) (t) (h : M.step s = .refused t) :
    M.run (k + 1) s = .refused t := by
  rw [Host.Core.run, h]

/-- `run` is the host interface's run of the CORE. -/
theorem run_eq_core_run (k : Nat) (s : State) : run k s = Host.Core.run Sys2Proof.core k s := by
  induction k generalizing s with
  | zero => rfl
  | succ k ih =>
    unfold run
    cases h : step s with
    | next t => exact (ih t).trans (core_run_next Sys2Proof.core k s t h).symm
    | fault r => exact (core_run_fault Sys2Proof.core k s r h).symm
    | refused r => exact (core_run_refused Sys2Proof.core k s r h).symm

theorem run_succ_of_next {k : Nat} {s t : State} (h : step s = .next t) : run (k + 1) s = run k t := by
  rw [run_succ, h]

/-- A run is a run followed by a run. -/
theorem run_add {j k : Nat} {s t : State} (h : run j s = .next t) : run (j + k) s = run k t := by
  induction j generalizing s with
  | zero => cases h; rw [Nat.zero_add]
  | succ j ih =>
    rw [Nat.add_right_comm, run_succ]
    rw [run_succ] at h
    cases hs : step s with
    | next u => rw [hs] at h; exact ih h
    | fault r => rw [hs] at h; cases h
    | refused r => rw [hs] at h; cases h

/-- A run that goes on goes on at each step before. -/
theorem run_prefix_next {j k : Nat} {s t : State} (h : run (j + k) s = .next t) :
    ∃ u, run j s = .next u ∧ run k u = .next t := by
  induction j generalizing s with
  | zero => exact ⟨s, rfl, by rwa [Nat.zero_add] at h⟩
  | succ j ih =>
    rw [Nat.add_right_comm, run_succ] at h
    cases hs : step s with
    | next u =>
      rw [hs] at h
      obtain ⟨w, hw, hk⟩ := ih h
      exact ⟨w, by rw [run_succ, hs]; exact hw, hk⟩
    | fault r => rw [hs] at h; cases h
    | refused r => rw [hs] at h; cases h

end Sys2Proof.Machine
end

