-- ==== Sys2Proof/Tests/Slice0.lean ====
section
/-! SUPPORT. The model's own tests: ill-formed script lines are refused, words written out from the encoding
decode, vectors of 95_test_vectors.md come out, and for every statement with hypotheses a concrete state and
operands that meet them (witness_<statement>). Every expected value is the spec's. -/

namespace Sys2Proof.Tests

open Sys2Proof.Machine
open Host (Outcome)

/-! ## Well-formedness: each check refuses a line that breaks it -/

theorem test_wf_wr_register : (Line.wr 8 0).wf = false := by decide
theorem test_wf_wr_value : (Line.wr 1 4294967296).wf = false := by decide
theorem test_wf_rd_register : (Line.rd 8).wf = false := by decide
theorem test_wf_wb_address : (Line.wb 65536 0).wf = false := by decide
theorem test_wf_wb_value : (Line.wb 0 256).wf = false := by decide
theorem test_wf_ri_address : (Line.ri 65536).wf = false := by decide
theorem test_wf_rb_address : (Line.rb 131072).wf = false := by decide
theorem test_wf_load_range : (Line.load 65535 [1, 2]).wf = false := by decide
theorem test_wf_load_byte : (Line.load 0 [255, 256]).wf = false := by decide
theorem test_wf_loads_range : (Line.loads 65536 ['0']).wf = false := by decide
theorem test_wf_loads_byte : (Line.loads 0 ['0', 'Ā']).wf = false := by decide
theorem test_wf_encode_length : (Line.encode 65536).wf = false := by decide
theorem test_wf_decode_length : (Line.decode 65536).wf = false := by decide
theorem test_wf_dump_length : (Line.dump 131073).wf = false := by decide
theorem test_wf_accepts :
    (Line.wr 7 4294967295).wf = true ∧ (Line.wb 65535 255).wf = true ∧ (Line.rb 131071).wf = true ∧
      (Line.load 65535 [255]).wf = true ∧ (Line.encode 65535).wf = true ∧
      (Line.dump 131072).wf = true ∧ Instr.encode.wf = true ∧ Instr.decode.wf = true := by decide

/-! ## Decoding: words written out from R60 and R61, bit 0 last -/

theorem test_decode_encode :
    decode [0b00000000000000000000000000000000] = .ok (.encode, []) := by decide
theorem test_decode_encode_ignored_bits :
    decode [0b11111111111111111111111111111110] = .ok (.encode, []) := by decide
theorem test_decode_decode :
    decode [0b00000000000000000000000000000001] = .ok (.decode, []) := by decide
theorem test_decode_decode_ignored_bits :
    decode [0b10000000000000000000000000000001] = .ok (.decode, []) := by decide
theorem test_decode_nothing : decode [] = .error .noCommandWord := by decide
theorem test_encode_words : encode .encode = [0x00000000] ∧ encode .decode = [0x00000001] := by decide
theorem test_table_words :
    decodeTableWord 32 0 = some .encode ∧ decodeTableWord 32 1 = some .decode ∧
      decodeTableWord 32 4294967296 = none ∧ decodeTableWord 40 0 = none := by decide
theorem test_register_numbers :
    decodeReg 0 = .cmd ∧ decodeReg 1 = .len ∧ decodeReg 2 = .status ∧ decodeReg 3 = .olen ∧
      decodeReg 4 = .erridx ∧ decodeReg 5 = .reserved5 ∧ decodeReg 6 = .reserved6 ∧
      decodeReg 7 = .reserved7 := by decide
theorem test_ports :
    decodeRegPort 0 true 1 = .wr .cmd 1 ∧ decodeRegPort 2 false 1 = .rd .status ∧
      decodeIbufPort 3 true 0x6F = .wb 3 0x6F ∧ decodeIbufPort 3 false 0x6F = .ri 3 ∧
      decodeObufPort 131071 = .rb 131071 := by decide

/-! ## The ROMs and the datapaths: R50, R53, R55 and 95_test_vectors.md sections 2.1, 2.2 -/

/-- Entries of R50 and R53 at the ends and at the pinned digits of R51. -/
theorem test_roms :
    encRom 0 = 0x30 ∧ encRom 43 = 0x48 ∧ encRom 62 = 0x2E ∧ encRom 84 = 0x23 ∧ decRom 0 = 0x00 ∧
      decRom 1 = 0x44 ∧ decRom 40 = 0x2B ∧ decRom 93 = 0x50 ∧ decRom 95 = 0x00 := by decide

/-- R52 (b): the 85 entries lie in 0x21 to 0x7D. -/
theorem test_alphabet : ∀ d : Fin 85, 0x21 ≤ (encRom d).toNat ∧ (encRom d).toNat ≤ 0x7D := by
  decide +kernel

/-- R80, R81: the range test, and the digit of a valid character only. -/
theorem test_digits :
    inRange 0x1F = false ∧ inRange 0x20 = true ∧ inRange 0x7F = true ∧ inRange 0x80 = false ∧
      digitOf 0x48 = some 43 ∧ digitOf 0x20 = none ∧ decRomLookup 0x20 = some 0 ∧
      decRomLookup 0xB0 = none := by decide

/-- D-E8, D-E16, D-E17, D-E24: the largest value, bit 31, the byte order, the largest first digit. -/
theorem test_enc_block :
    encBlock ⟨0xFF, 0xFF, 0xFF, 0xFF⟩ = ⟨0x25, 0x6E, 0x53, 0x63, 0x30⟩ ∧
      encBlock ⟨0x80, 0x00, 0x00, 0x00⟩ = ⟨0x46, 0x62, 0x2F, 0x4D, 0x48⟩ ∧
      encBlock ⟨0x01, 0x02, 0x03, 0x04⟩ = ⟨0x30, 0x72, 0x4A, 0x75, 0x61⟩ ∧
      encBlock ⟨0xFF, 0x22, 0x80, 0xB2⟩ = ⟨0x25, 0x30, 0x30, 0x30, 0x30⟩ := by decide

/-- D-D7, D-D8, D-D14, D-D20: the largest legal group, the smallest and the largest overflow, case. -/
theorem test_dec_block :
    decBlock ⟨0x25, 0x6E, 0x53, 0x63, 0x30⟩ = .ok ⟨0xFF, 0xFF, 0xFF, 0xFF⟩ ∧
      decBlock ⟨0x25, 0x6E, 0x53, 0x63, 0x31⟩ = .valueOverflow ∧
      decBlock ⟨0x23, 0x23, 0x23, 0x23, 0x23⟩ = .valueOverflow ∧
      decBlock ⟨0x68, 0x65, 0x6C, 0x6C, 0x6F⟩ = .ok ⟨0x35, 0x6A, 0x58, 0x75⟩ := by decide

/-- D-D30, D-D42, D-D43, D-D49, D-D50: a sentinel, the lowest offset, below the table, bit 7, character
before overflow. -/
theorem test_dec_block_invalid :
    decBlock ⟨0x30, 0x30, 0x30, 0x30, 0x20⟩ = .invalidCharacter 4 ∧
      decBlock ⟨0x30, 0x20, 0x30, 0x20, 0x30⟩ = .invalidCharacter 1 ∧
      decBlock ⟨0x00, 0x30, 0x30, 0x30, 0x30⟩ = .invalidCharacter 0 ∧
      decBlock ⟨0xB0, 0x30, 0x30, 0x30, 0x30⟩ = .invalidCharacter 0 ∧
      decBlock ⟨0x24, 0x20, 0x30, 0x30, 0x30⟩ = .invalidCharacter 1 := by decide

/-- The bytes of S1. -/
def hello : List Byte := [0x86, 0x4F, 0xD2, 0x6F, 0xB5, 0x59, 0xF7, 0x5B]

/-- The text of S1 and S2: HelloWorld. -/
def helloText : List Byte := [0x48, 0x65, 0x6C, 0x6C, 0x6F, 0x57, 0x6F, 0x72, 0x6C, 0x64]

/-- S1, S2. -/
theorem test_hello : z85Encode hello = .ok helloText ∧ z85Decode helloText = .ok hello := by
  decide

/-- D-MD14, D-MD15, D-MD17: the priority of errors (R121). -/
theorem test_priority :
    z85Decode [0x25, 0x6E, 0x53, 0x63, 0x31, 0x30, 0x30, 0x30, 0x30, 0x20] = .error (.valueOverflow 0) ∧
      z85Decode [0x30, 0x30, 0x30, 0x30, 0x20, 0x25, 0x6E, 0x53, 0x63, 0x31] =
        .error (.invalidCharacter 4) ∧
      z85Decode [0x48, 0x65, 0x6C, 0x6C, 0x20, 0x57, 0x6F, 0x72, 0x6C] = .error .invalidLength := by
  decide

/-! ## Small states -/

/-- A buffer whose cells from address 0 up hold the bytes. -/
def cells (bs : List Byte) : Memory := Memory.writeN [] 0 bs

/-- After reset, with a message and its length written. -/
def idle (bs : List Byte) : State :=
  { State.reset with len := BitVec.ofNat Config.AW bs.length, ibuf := cells bs }

/-- A command just started on a message. -/
def running (i : Instr) (bs : List Byte) : State := { idle bs with op := i, busy := true }

/-- `ENCODE` on the bytes of S1 after its first group step (P1). -/
def halfEncoded : State :=
  { running .encode hello with ipos := 4, opos := 5, obuf := cells [0x48, 0x65, 0x6C, 0x6C, 0x6F] }

/-- `DECODE` on a ten-character text that begins with Hello, after its first group step (P2, P4). -/
def halfDecoded (second : List Byte) : State :=
  { running .decode ([0x48, 0x65, 0x6C, 0x6C, 0x6F] ++ second) with
    ipos := 5, opos := 4, acc := 2253378159, obuf := cells [0x86, 0x4F, 0xD2, 0x6F] }

/-- `ENCODE` on the bytes of S1 before its finish step (P1). -/
def allEncoded : State :=
  { running .encode hello with ipos := 8, opos := 10, obuf := cells helloText }

/-- An outcome is the next state `t`, decided. -/
def goesTo (o : Outcome State Fault Refusal) (t : State) : Bool :=
  match o with
  | .next u => u == t
  | .fault _ => false
  | .refused _ => false

/-- An outcome is the refusal `r`, decided. -/
def stopsWith (o : Outcome State Fault Refusal) (r : Refusal) : Bool :=
  match o with
  | .next _ => false
  | .fault _ => false
  | .refused q => q == r

theorem eq_next {o : Outcome State Fault Refusal} {t : State} (h : goesTo o t = true) : o = .next t := by
  cases o <;> simp_all [goesTo]

theorem eq_refused {o : Outcome State Fault Refusal} {r : Refusal} (h : stopsWith o r = true) :
    o = .refused r := by
  cases o <;> simp_all [stopsWith]

/-- A state with these events to come. -/
def withEvents (s : State) (es : List Event) : State := { s with script := es }

/-- The fields of `Inv` that are decided by evaluation, with the converted groups given. -/
theorem inv_of_running {s : State} (m out : List Byte) (hb : s.busy = true) (hd : s.done = false)
    (hc : s.err = .noError ∧ s.olen = 0 ∧ s.erridx = 0) (hl : s.len.toNat % s.op.groupIn = 0)
    (hi : s.ipos.toNat % s.op.groupIn = 0 ∧ s.ipos.toNat ≤ s.len.toNat)
    (ho : s.opos.toNat = s.ipos.toNat / s.op.groupIn * s.op.groupOut)
    (hm : s.ibuf.readN 0 s.ipos.toNat = some m) (hv : convert s.op m = .ok out)
    (hw : s.obuf.readN 0 s.opos.toNat = some out)
    (hwf : Memory.wf Config.ibufSize s.ibuf = true ∧ Memory.wf Config.obufSize s.obuf = true) : Inv s where
  not_both := by simp [hd]
  running_clear := fun _ => hc
  running_length := fun _ => hl
  running_ipos := fun _ => hi
  running_opos := fun _ => ho
  running_converted := fun _ => ⟨m, out, hm, hv, hw⟩
  error_ended := fun h => absurd hc.1 h
  idle_clear := fun h => by simp [hb] at h
  index_clear := fun _ => hc.2.2
  result_written := ⟨[], by rw [hc.2.1]; rfl⟩
  ibuf_wf := hwf.1
  obuf_wf := hwf.2

theorem running_encode_inv : Inv (running .encode hello) :=
  inv_of_running [] [] rfl rfl (by decide) (by decide) (by decide) (by decide) rfl rfl rfl (by decide)

theorem running_decode_inv : Inv (running .decode helloText) :=
  inv_of_running [] [] rfl rfl (by decide) (by decide) (by decide) (by decide) rfl rfl rfl (by decide)

theorem halfEncoded_inv : Inv halfEncoded :=
  inv_of_running [0x86, 0x4F, 0xD2, 0x6F] [0x48, 0x65, 0x6C, 0x6C, 0x6F] rfl rfl (by decide) (by decide)
    (by decide) (by decide) (by decide) (by decide) (by decide) (by decide)

theorem halfDecoded_inv (second : List Byte) (h : second.length = 5) : Inv (halfDecoded second) := by
  match second, h with
  | [a, b, c, d, e], _ =>
    exact inv_of_running [0x48, 0x65, 0x6C, 0x6C, 0x6F] [0x86, 0x4F, 0xD2, 0x6F] rfl rfl
      ⟨rfl, rfl, rfl⟩ (by decide : (10 : Nat) % 5 = 0)
      ⟨(by decide : (5 : Nat) % 5 = 0), (by decide : (5 : Nat) ≤ 10)⟩ (by decide : (4 : Nat) = 5 / 5 * 4) rfl
      (by decide : z85Decode [0x48, 0x65, 0x6C, 0x6C, 0x6F] = .ok [0x86, 0x4F, 0xD2, 0x6F])
      (by decide : (cells [0x86, 0x4F, 0xD2, 0x6F]).readN 0 4 = some [0x86, 0x4F, 0xD2, 0x6F])
      ⟨rfl, (by decide : Memory.wf Config.obufSize (cells [0x86, 0x4F, 0xD2, 0x6F]) = true)⟩

theorem allEncoded_inv : Inv allEncoded :=
  inv_of_running hello helloText rfl rfl (by decide) (by decide)
    (by decide) (by decide) (by decide) (by decide) (by decide) (by decide)

theorem withEvents_inv {s : State} (h : Inv s) (es : List Event) : Inv (withEvents s es) :=
  ⟨h.1, h.2, h.3, h.4, h.5, h.6, h.7, h.8, h.9, h.10, h.11, h.12⟩

/-! ## One step of each kind: 95_test_vectors.md section 2.5 and Part 3 -/

/-- P1, line 10: the start of `ENCODE`. -/
theorem test_encode_start :
    step ((idle hello).withFetchWord 32 0xFFFFFFFE) = .next (running .encode hello) := 
  eq_next (by decide)

/-- P1: the encode step on group 1. -/
theorem test_encode_group : step halfEncoded = .next allEncoded := 
  eq_next (by decide)

/-- P1: the finish step. -/
theorem test_finish :
    step allEncoded = .next { allEncoded with olen := 10, busy := false, done := true } := 
  eq_next (by decide)

/-- P5: the decode step on the smallest overflow; `ACC` keeps its bit 32. -/
theorem test_decode_overflow :
    step (halfDecoded [0x25, 0x6E, 0x53, 0x63, 0x31]) =
      .next { halfDecoded [0x25, 0x6E, 0x53, 0x63, 0x31] with
        err := .valueOverflow, erridx := 5, busy := false, done := true, acc := 4294967296 } := 
  eq_next (by decide)

/-- P4: the decode step on a group with a space; nothing is written and `ACC` is 0. -/
theorem test_decode_invalid :
    step (halfDecoded [0x57, 0x6F, 0x72, 0x20, 0x64]) =
      .next { halfDecoded [0x57, 0x6F, 0x72, 0x20, 0x64] with
        err := .invalidCharacter, erridx := 8, busy := false, done := true, acc := 0 } := 
  eq_next (by decide)

/-- D-H22: an illegal length ends at once, with no cell read. -/
theorem test_illegal_length :
    step ({ State.reset with len := 3 }.withFetchWord 32 0) =
      .next { State.reset with len := 3, err := .invalidLength, done := true } := 
  eq_next (by decide)

/-- D-H21: a group step on cells not written since reset is refused at the first. -/
theorem test_unwritten_input :
    step { State.reset with len := 4, busy := true } = .refused (.unwrittenIbuf 0) := 
  eq_refused (by decide)

/-- D-H20: so are the host's reads of such cells. -/
theorem test_unwritten_reads :
    step (withEvents State.reset [.host (.rb 0)]) = .refused (.unwrittenObuf 0) ∧
      step (withEvents State.reset [.host (.ri 0)]) = .refused (.unwrittenIbuf 0) := 
  ⟨eq_refused (by decide), eq_refused (by decide)⟩

/-- D-H1 to D-H6: the values of `STATUS`. -/
theorem test_status :
    statusWord State.reset = 0x0 ∧ statusWord halfEncoded = 0x1 ∧
      statusWord { State.reset with done := true } = 0x2 ∧
      statusWord { State.reset with done := true, err := .invalidLength } = 0x6 ∧
      statusWord { State.reset with done := true, err := .invalidCharacter } = 0xA ∧
      statusWord { State.reset with done := true, err := .valueOverflow } = 0xE := by decide

/-- D-H9: writes of read-only and reserved registers. -/
theorem test_readonly_write :
    step (withEvents { State.reset with len := 8 } [.host (.wr .olen 7)]) =
      .next { State.reset with len := 8 } := 
  eq_next (by decide)

/-- D-H10: `LEN` keeps the low 16 bits. -/
theorem test_len_truncation :
    step (withEvents State.reset [.host (.wr .len 0x0001000A)]) = .next { State.reset with len := 10 } := 
  eq_next (by decide)

/-- D-H17, P6: a write of `IBUF` while running is ignored. -/
theorem test_busy_write :
    step (withEvents halfEncoded [.host (.wb 4 0x00)]) = .next halfEncoded := 
  eq_next (by decide)

/-- P6, line 8: `RB 0` of a running operation. -/
theorem test_running_read :
    step (withEvents halfEncoded [.host (.rb 0)]) =
      .next { halfEncoded with replies := [.obuf 0x48] } := 
  eq_next (by decide)

/-- P7, line 11: reset abandons the operation. -/
theorem test_reset : step (withEvents halfEncoded [.reset]) = .next State.reset := 
  eq_next (by decide)

/-- `WAIT` polls until the value read has `DONE = 1` (R66). -/
theorem test_wait :
    step (withEvents { State.reset with done := true } [.wait]) =
      .next { State.reset with done := true, replies := [.reg 0x2] } := 
  eq_next (by decide)

/-- The expansions of R66. -/
theorem test_script_lines :
    lineEvents (.load 7 [1, 2]) = [.host (.wb 7 1), .host (.wb 8 2)] ∧
      lineEvents (.loads 0 ['H', 'e']) = [.host (.wb 0 0x48), .host (.wb 1 0x65)] ∧
      lineEvents (.decode 10) = [.host (.wr .len 10), .host (.wr .cmd 1)] ∧
      lineEvents (.encode 8) = [.host (.wr .len 8), .host (.wr .cmd 0)] ∧
      lineEvents (.dump 2) = [.host (.rb 0), .host (.rb 1)] ∧
      lineEvents (.rd 4) = [.host (.rd .erridx)] := by decide

/-! ## Witnesses: for each statement with hypotheses, what meets them all -/

theorem witness_OddWordsDecodeEvenWordsEncode : 0 < 2 ^ 32 ∧ 4294967295 < 2 ^ 32 := by decide

theorem witness_AcceptedCommandRuns :
    (withEvents (idle hello) [.host (.wr .cmd 0xFFFFFFFE)]).script = .host (.wr .cmd 0xFFFFFFFE) :: [] ∧
      (withEvents (idle hello) [.host (.wr .cmd 0xFFFFFFFE)]).busy = false := ⟨rfl, rfl⟩

theorem witness_SequencerTurnAdvancesCommand_running :
    (halfEncoded.script = [] ∧ ([] : List Event) = []) ∧ halfEncoded.busy = true := ⟨⟨rfl, rfl⟩, rfl⟩

theorem witness_SequencerTurnAdvancesCommand_idle :
    (withEvents (idle hello) [.seq]).script = .seq :: [] ∧ (withEvents (idle hello) [.seq]).busy = false :=
  ⟨rfl, rfl⟩

theorem witness_FetchedTableWordRuns :
    2147483649 < 2 ^ 32 ∧ decodeTableWord 32 2147483649 = some .decode := by decide

theorem witness_ResetEventClearsEverything :
    (withEvents halfEncoded [.reset]).script = .reset :: [] := rfl

theorem witness_RegisterReadsReturnFields (r : Reg) :
    (withEvents halfEncoded [.host (.rd r)]).script = .host (.rd r) :: [] := rfl

theorem witness_LenWriteTakesLowBits :
    (withEvents State.reset [.host (.wr .len 65536)]).script = .host (.wr .len 65536) :: [] ∧
      (withEvents State.reset [.host (.wr .len 65536)]).busy = false := ⟨rfl, rfl⟩

theorem witness_WritesWhileBusyIgnored (x : Txn) :
    (withEvents halfEncoded [.host x]).script = .host x :: [] ∧
      (withEvents halfEncoded [.host x]).busy = true := ⟨rfl, rfl⟩

/-- For each of the reads, the `OBUF` read at the last cell below `OPOS`. -/
theorem witness_ReadsWhileRunning (x : Txn) :
    Inv (withEvents halfEncoded [.host x]) ∧ (withEvents halfEncoded [.host x]).busy = true ∧
      (withEvents halfEncoded [.host x]).script = .host x :: [] ∧
      (4 : OAddr).toNat < (withEvents halfEncoded [.host x]).opos.toNat :=
  ⟨withEvents_inv halfEncoded_inv _, rfl, rfl, (by decide : (4 : Nat) < 5)⟩

theorem witness_InputWriteIsReadBack :
    (withEvents (idle hello) [.host (.wb 65535 7), .host (.ri 65535)]).script =
        .host (.wb 65535 7) :: .host (.ri 65535) :: [] ∧
      (withEvents (idle hello) [.host (.wb 65535 7), .host (.ri 65535)]).busy = false := ⟨rfl, rfl⟩

theorem witness_BufferReadsReturnCells :
    (withEvents halfEncoded [.host (.ri 7)]).script = .host (.ri 7) :: [] ∧
      (withEvents halfEncoded [.host (.rb 131071)]).script = .host (.rb 131071) :: [] := ⟨rfl, rfl⟩

theorem witness_LoadLineStoresItsBytes :
    (Line.load 65534 [0, 255]).wf = true ∧
      (withEvents (idle hello) (lineEvents (.load 65534 [0, 255]))).busy = false ∧
      (withEvents (idle hello) (lineEvents (.load 65534 [0, 255]))).script =
        lineEvents (.load 65534 [0, 255]) ++ [] := by decide

theorem witness_CommandLinesStart :
    65535 < 2 ^ Config.AW ∧ (idle hello).busy = false ∧
      (withEvents (idle hello) (lineEvents (.encode 65535))).script = lineEvents (.encode 65535) ++ [] ∧
      (withEvents (idle hello) (lineEvents (.decode 65535))).script = lineEvents (.decode 65535) ++ [] := by
  decide

theorem witness_WaitEndsWithDone :
    Inv (withEvents halfEncoded [.wait]) ∧ (withEvents halfEncoded [.wait]).busy = true ∧
      (withEvents halfEncoded [.wait]).message = some hello ∧
      (withEvents halfEncoded [.wait]).script = .wait :: [] :=
  ⟨withEvents_inv halfEncoded_inv _, rfl, by decide, rfl⟩

/-- A legal length for both commands, and one that is illegal for both. -/
theorem witness_StartFollowsRule :
    (idle []).busy = false ∧ (idle []).len.toNat % 4 = 0 ∧ (idle []).len.toNat % 5 = 0 ∧
      { State.reset with len := 65535 - 4 }.busy = false ∧
      { State.reset with len := 65535 - 4 }.len.toNat % 4 ≠ 0 ∧
      { State.reset with len := 65535 - 4 }.len.toNat % 5 ≠ 0 := by decide

/-- The last group of a message. -/
theorem witness_EncodeGroupStepConverts :
    Inv halfEncoded ∧ halfEncoded.busy = true ∧ halfEncoded.op = .encode ∧
      halfEncoded.ipos.toNat < halfEncoded.len.toNat ∧
      halfEncoded.ibuf.readN halfEncoded.ipos.toNat 4 = some [0xB5, 0x59, 0xF7, 0x5B] :=
  ⟨halfEncoded_inv, rfl, rfl, by decide, by decide⟩

/-- The largest legal group. -/
theorem witness_DecodeGroupStepConverts :
    Inv (halfDecoded [0x25, 0x6E, 0x53, 0x63, 0x30]) ∧
      (halfDecoded [0x25, 0x6E, 0x53, 0x63, 0x30]).busy = true ∧
      (halfDecoded [0x25, 0x6E, 0x53, 0x63, 0x30]).op = .decode ∧
      (halfDecoded [0x25, 0x6E, 0x53, 0x63, 0x30]).ipos.toNat <
        (halfDecoded [0x25, 0x6E, 0x53, 0x63, 0x30]).len.toNat ∧
      (halfDecoded [0x25, 0x6E, 0x53, 0x63, 0x30]).ibuf.readN 5 5 =
        some [encRom 82, encRom 23, encRom 54, encRom 12, encRom 0] ∧
      digitsValue 82 23 54 12 0 < 2 ^ 32 :=
  ⟨halfDecoded_inv _ rfl, rfl, rfl, by decide, by decide, by decide⟩

/-- Two invalid characters, the first at offset 3. -/
theorem witness_InvalidCharacterEndsOperation :
    Inv (halfDecoded [0x57, 0x6F, 0x72, 0x20, 0x00]) ∧
      (halfDecoded [0x57, 0x6F, 0x72, 0x20, 0x00]).busy = true ∧
      (halfDecoded [0x57, 0x6F, 0x72, 0x20, 0x00]).op = .decode ∧
      (halfDecoded [0x57, 0x6F, 0x72, 0x20, 0x00]).ipos.toNat <
        (halfDecoded [0x57, 0x6F, 0x72, 0x20, 0x00]).len.toNat ∧
      (halfDecoded [0x57, 0x6F, 0x72, 0x20, 0x00]).ibuf.readN 5 5 =
        some [0x57, 0x6F, 0x72, 0x20, 0x00] ∧
      (([0x57, 0x6F, 0x72, 0x20, 0x00] : List Byte).map valid)[3]? = some false ∧
      ∀ j, j < 3 → (([0x57, 0x6F, 0x72, 0x20, 0x00] : List Byte).map valid)[j]? = some true :=
  ⟨halfDecoded_inv _ rfl, rfl, rfl, by decide, by decide, by decide, by decide⟩

/-- The smallest overflow. -/
theorem witness_ValueOverflowEndsOperation :
    Inv (halfDecoded [0x25, 0x6E, 0x53, 0x63, 0x31]) ∧
      (halfDecoded [0x25, 0x6E, 0x53, 0x63, 0x31]).busy = true ∧
      (halfDecoded [0x25, 0x6E, 0x53, 0x63, 0x31]).op = .decode ∧
      (halfDecoded [0x25, 0x6E, 0x53, 0x63, 0x31]).ipos.toNat <
        (halfDecoded [0x25, 0x6E, 0x53, 0x63, 0x31]).len.toNat ∧
      (halfDecoded [0x25, 0x6E, 0x53, 0x63, 0x31]).ibuf.readN 5 5 =
        some [encRom 82, encRom 23, encRom 54, encRom 12, encRom 1] ∧
      2 ^ 32 ≤ digitsValue 82 23 54 12 1 :=
  ⟨halfDecoded_inv _ rfl, rfl, rfl, by decide, by decide, by decide⟩

theorem witness_FinishStepPublishesLength :
    (allEncoded.busy = true ∧ allEncoded.op = .encode ∧ allEncoded.ipos = allEncoded.len) ∧
      State.reset.busy = false ∧ State.reset.len = 0 := by decide

theorem witness_FinishedLengthIsExact :
    ∃ t, Inv allEncoded ∧ allEncoded.busy = true ∧ exec allEncoded.op allEncoded = .next t ∧
      t.done = true ∧ t.err = .noError :=
  ⟨finish allEncoded, allEncoded_inv, rfl, eq_next (by decide), rfl, rfl⟩

/-- The last cell of the message is the one not written. -/
theorem witness_UnwrittenInputRefused :
    Inv { running .encode (hello.take 3) with len := 4 } ∧
      { running .encode (hello.take 3) with len := 4 }.ipos.toNat < (4 : IAddr).toNat ∧
      3 < Instr.encode.groupIn ∧ (cells (hello.take 3)).read 3 = none ∧
      ∀ j, j < 3 → (cells (hello.take 3)).read (0 + j) ≠ none :=
  ⟨inv_of_running [] [] rfl rfl (by decide) (by decide) (by decide) (by decide) rfl rfl rfl (by decide),
    by decide, by decide, by decide, by decide⟩

/-- A slot of the alphabet (digit 0) and a sentinel slot (the first). -/
theorem witness_RomsAreInverse :
    (∃ d : Fin 85, (encRom d).toNat = (16 : Fin 96).val + 0x20) ∧
      ∀ d : Fin 85, (encRom d).toNat ≠ (0 : Fin 96).val + 0x20 := by decide +kernel

theorem witness_DigitsRepresentValue :
    digitsValue 82 23 54 12 0 = bytesValue 0xFF 0xFF 0xFF 0xFF := by decide

theorem witness_AccumulatorIsExact : ([84, 84, 84, 84, 84] : List (Fin 85)).length ≤ 5 := by decide

theorem witness_GroupDatapathsAreInverse :
    decBlock ⟨0x25, 0x6E, 0x53, 0x63, 0x30⟩ = .ok ⟨0xFF, 0xFF, 0xFF, 0xFF⟩ ∧
      encBlock ⟨0, 0, 0, 0⟩ = encBlock ⟨0, 0, 0, 0⟩ := by decide

theorem witness_EncodeLengthAndAlphabet :
    hello.length % 4 = 0 ∧ (hello.take 7).length % 4 ≠ 0 := by decide

theorem witness_EncodeIsInjective :
    z85Encode hello = .ok helloText ∧ z85Encode hello = .ok helloText := by decide

theorem witness_EncodeConcatenates :
    z85Encode hello = .ok helloText ∧ z85Encode [] = .ok [] := by decide

theorem witness_DecodeLengthLaw :
    z85Decode helloText = .ok hello ∧ (helloText.take 9).length % 5 ≠ 0 := by decide

/-- D-MD15: the first invalid character at index 4, in the first group, no group wholly before it. -/
theorem witness_FirstInvalidCharacterDecides_character :
    ([0x30, 0x30, 0x30, 0x30, 0x20, 0x25, 0x6E, 0x53, 0x63, 0x31] : List Byte).length % 5 = 0 ∧
      (([0x30, 0x30, 0x30, 0x30, 0x20, 0x25, 0x6E, 0x53, 0x63, 0x31] : List Byte).map valid)[4]? =
        some false ∧
      (∀ j, j < 4 →
        (([0x30, 0x30, 0x30, 0x30, 0x20, 0x25, 0x6E, 0x53, 0x63, 0x31] : List Byte).map valid)[j]? =
          some true) ∧
      ∀ g, 5 * g + 5 ≤ 4 →
        ¬ GroupOverflows [0x30, 0x30, 0x30, 0x30, 0x20, 0x25, 0x6E, 0x53, 0x63, 0x31] g :=
  ⟨by decide, by decide, by decide, fun g h => absurd h (by omega)⟩

/-- D-MD14: an overflow in group 0, an invalid character after it. -/
theorem witness_FirstInvalidCharacterDecides_overflow :
    ([0x25, 0x6E, 0x53, 0x63, 0x31, 0x30, 0x30, 0x30, 0x30, 0x20] : List Byte).length % 5 = 0 ∧
      GroupOverflows [0x25, 0x6E, 0x53, 0x63, 0x31, 0x30, 0x30, 0x30, 0x30, 0x20] 0 ∧
      (∀ g', g' < 0 → ¬ GroupOverflows [0x25, 0x6E, 0x53, 0x63, 0x31, 0x30, 0x30, 0x30, 0x30, 0x20] g') ∧
      ∀ j, j < 5 * 0 →
        (([0x25, 0x6E, 0x53, 0x63, 0x31, 0x30, 0x30, 0x30, 0x30, 0x20] : List Byte).map valid)[j]? =
          some true :=
  ⟨by decide, ⟨82, 23, 54, 12, 1, by decide, by decide⟩, fun g' h => absurd h (by omega),
    fun j h => absurd h (by omega)⟩

/-- The largest legal group: all valid, no overflow. -/
theorem witness_FirstInvalidCharacterDecides_good :
    ([0x25, 0x6E, 0x53, 0x63, 0x30] : List Byte).length % 5 = 0 ∧
      (∀ c ∈ ([0x25, 0x6E, 0x53, 0x63, 0x30] : List Byte), valid c = true) ∧
      ∀ g, ¬ GroupOverflows [0x25, 0x6E, 0x53, 0x63, 0x30] g := by
  refine ⟨by decide, by decide, fun g => ?_⟩
  cases g with
  | zero => exact fun h => absurd (groupOverflows_zero (d0 := 82) (d1 := 23) (d2 := 54) (d3 := 12)
      (d4 := 0) (rest := []) |>.mp h) (by decide)
  | succ g => exact fun h => not_groupOverflows_nil g (groupOverflows_succ.mp h)

theorem witness_DecodedTextsAreCanonical : z85Decode helloText = .ok hello := by decide

theorem witness_DecodeConcatenates :
    helloText.length % 5 = 0 ∧ ([] : List Byte).length % 5 = 0 := by decide

theorem witness_SentinelsAreRejected :
    (0x7F : Byte) ∈
      ([0x20, 0x22, 0x27, 0x2C, 0x3B, 0x5C, 0x5F, 0x60, 0x7C, 0x7E, 0x7F] : List Byte) := by decide

theorem witness_EncodeThenDecodeRoundTrips : hello.length % 4 = 0 := by decide

theorem witness_StepKeepsInvariant : ∃ t, Inv halfEncoded ∧ step halfEncoded = .next t :=
  ⟨allEncoded, halfEncoded_inv, test_encode_group⟩

/-- A step that is refused. -/
theorem witness_StepNeverFaults :
    Inv (withEvents halfEncoded [.host (.rb 131071)]) ∧
      step (withEvents halfEncoded [.host (.rb 131071)]) = .refused (.unwrittenObuf 131071) :=
  ⟨withEvents_inv halfEncoded_inv _, eq_refused (by decide)⟩

theorem witness_OperationAgreesWithFunctions :
    (withEvents (idle hello) [.host (.wr .cmd 0)]).busy = false ∧
      (withEvents (idle hello) [.host (.wr .cmd 0)]).message = some hello ∧
      (withEvents (idle hello) [.host (.wr .cmd 0)]).script = [.host (.wr .cmd 0)] ∧
      1 ≤ operationSteps (decodeCommand 0) hello := by decide

/-- The empty message, decoded: the start, then the finish step. -/
theorem witness_AnyInterleavingAgreesWithFunctions :
    (withEvents (idle []) [.host (.wr .cmd 1), .seq]).busy = false ∧
      (withEvents (idle []) [.host (.wr .cmd 1), .seq]).message = some [] ∧
      (withEvents (idle []) [.host (.wr .cmd 1), .seq]).script = .host (.wr .cmd 1) :: [.seq] ∧
      .reset ∉ [Event.seq] ∧
      ∃ t, run (1 + 1) (withEvents (idle []) [.host (.wr .cmd 1), .seq]) = .next t ∧ t.done = true ∧
        ∀ j u, 1 ≤ j → j ≤ 1 → run j (withEvents (idle []) [.host (.wr .cmd 1), .seq]) = .next u →
          u.done = false := by
  refine ⟨rfl, rfl, rfl, by decide,
    { State.reset with op := .decode, done := true }, eq_next (by decide), rfl, fun j u h1 h2 h => ?_⟩
  obtain rfl : j = 1 := Nat.le_antisymm h2 h1
  have hr : run 1 (withEvents (idle []) [.host (.wr .cmd 1), .seq]) =
      .next (withEvents (running .decode []) [.seq]) := eq_next (by decide)
  rw [hr] at h
  cases h
  rfl

theorem witness_RunningOperationEnds :
    Inv halfEncoded ∧ halfEncoded.busy = true ∧ halfEncoded.message = some hello ∧
      halfEncoded.script = [] := ⟨halfEncoded_inv, rfl, by decide, rfl⟩

theorem witness_RunningInputIsFrozen :
    ∃ t, halfEncoded.busy = true ∧ nextEvent halfEncoded ≠ .reset ∧ step halfEncoded = .next t :=
  ⟨allEncoded, rfl, by decide, test_encode_group⟩

theorem witness_ResultsAreSticky :
    ∃ t, (withEvents (finish allEncoded) [.host (.wb 0 0)]).busy = false ∧
      nextEvent (withEvents (finish allEncoded) [.host (.wb 0 0)]) ≠ .reset ∧
      (∀ v, nextEvent (withEvents (finish allEncoded) [.host (.wb 0 0)]) ≠ .host (.wr .cmd v)) ∧
      step (withEvents (finish allEncoded) [.host (.wb 0 0)]) = .next t :=
  ⟨{ finish allEncoded with ibuf := allEncoded.ibuf.write 0 0 }, rfl, by decide,
    fun v h => (by cases h), eq_next (by decide)⟩

/-- A transaction; a write of a reserved register; a step that changes `OBUF`; one that changes `IBUF`. -/
theorem witness_AccessRights :
    nextEvent (withEvents halfEncoded [.host (.rd .len)]) = .host (.rd .len) ∧
      nextEvent (withEvents halfEncoded [.host (.wr .reserved7 1)]) = .host (.wr .reserved7 1) ∧
      (step halfEncoded = .next allEncoded ∧ nextEvent halfEncoded ≠ .reset ∧
        allEncoded.obuf ≠ halfEncoded.obuf) ∧
      (step (withEvents State.reset [.host (.wb 0 1)]) = .next { State.reset with ibuf := [(0, 1)] } ∧
        [(0, 1)] ≠ State.reset.ibuf) :=
  ⟨rfl, rfl, ⟨test_encode_group, by decide, by decide⟩, eq_next (by decide), by decide⟩

/-- A step that changes `LEN`; a start that changes `OP` and the status. -/
theorem witness_AccessRights_start :
    (step (withEvents State.reset [.host (.wr .len 1)]) = .next { State.reset with len := 1 } ∧
        (1 : IAddr) ≠ State.reset.len) ∧
      step (withEvents (idle []) [.host (.wr .cmd 1)]) = .next (running .decode []) ∧
      (running .decode []).op ≠ (idle []).op ∧
      ((running .decode []).busy, (running .decode []).done) ≠ ((idle []).busy, (idle []).done) :=
  ⟨⟨eq_next (by decide), by decide⟩, eq_next (by decide), by decide, by decide⟩

/-- Reset; an idle turn; a transaction while running. -/
theorem witness_ControlFlow_others :
    (∃ t, step (withEvents halfEncoded [.reset]) = .next t ∧
        nextEvent (withEvents halfEncoded [.reset]) = .reset) ∧
      (∃ t, step State.reset = .next t ∧ State.reset.busy = false ∧ nextEvent State.reset = .seq) ∧
      ∃ t, step (withEvents halfEncoded [.host (.rd .len)]) = .next t ∧
        nextEvent (withEvents halfEncoded [.host (.rd .len)]) = .host (.rd .len) :=
  ⟨⟨State.reset, test_reset, rfl⟩, ⟨State.reset, eq_next (by decide), rfl, rfl⟩,
    ⟨{ halfEncoded with replies := [.reg 8] }, eq_next (by decide), rfl⟩⟩

/-- A start with `BUSY = 0`; a turn of SEQ with `BUSY = 1`. -/
theorem witness_ControlFlow :
    (∃ t, Inv (withEvents State.reset [.host (.wr .cmd 0)]) ∧
        step (withEvents State.reset [.host (.wr .cmd 0)]) = .next t ∧
        nextEvent (withEvents State.reset [.host (.wr .cmd 0)]) = .host (.wr .cmd 0)) ∧
      ∃ t, Inv halfEncoded ∧ step halfEncoded = .next t ∧ halfEncoded.busy = true ∧
        nextEvent halfEncoded = .seq :=
  ⟨⟨{ State.reset with busy := true },
      ⟨by decide, fun h => (by cases h), fun h => (by cases h), fun h => (by cases h),
        fun h => (by cases h), fun h => (by cases h), fun h => absurd rfl h, fun _ _ => ⟨rfl, rfl, rfl⟩,
        fun _ => rfl, ⟨[], rfl⟩, rfl, rfl⟩, eq_next (by decide), rfl⟩,
    ⟨allEncoded, halfEncoded_inv, test_encode_group, rfl, rfl⟩⟩

theorem witness_StatusValuesReadable :
    ∃ t, Inv (withEvents halfEncoded [.host (.rd .status)]) ∧
      (withEvents halfEncoded [.host (.rd .status)]).script = .host (.rd .status) :: [] ∧
      step (withEvents halfEncoded [.host (.rd .status)]) = .next t :=
  ⟨{ halfEncoded with replies := [.reg 1] }, withEvents_inv halfEncoded_inv _, rfl, eq_next (by decide)⟩

/-- A state after an error, with other bytes in `OBUF`, and the same message in `IBUF`. -/
def afterError : State := { idle hello with err := .valueOverflow, done := true, obuf := cells [1, 2] }

/-- Two states that differ in what earlier operations left; the command takes steps. -/
theorem witness_ResultIndependentOfHistory :
    (withEvents (idle hello) [.host (.wr .cmd 0)]).busy = false ∧
      (withEvents afterError [.host (.wr .cmd 0)]).busy = false ∧
      (withEvents (idle hello) [.host (.wr .cmd 0)]).len =
        (withEvents afterError [.host (.wr .cmd 0)]).len ∧
      (withEvents (idle hello) [.host (.wr .cmd 0)]).message = some hello ∧
      (withEvents afterError [.host (.wr .cmd 0)]).message = some hello ∧
      (withEvents (idle hello) [.host (.wr .cmd 0)]).script = [.host (.wr .cmd 0)] ∧
      (withEvents afterError [.host (.wr .cmd 0)]).script = [.host (.wr .cmd 0)] ∧
      1 ≤ operationSteps (decodeCommand 0) hello := by decide

theorem witness_MachineRoundTrips :
    (withEvents (idle hello) [.host (.wr .cmd 0)]).busy = false ∧
      (withEvents (idle hello) [.host (.wr .cmd 0)]).message = some hello ∧ hello.length % 4 = 0 ∧
      5 * (hello.length / 4) < 2 ^ Config.AW ∧
      (withEvents (idle hello) [.host (.wr .cmd 0)]).script = [.host (.wr .cmd 0)] := by decide

end Sys2Proof.Tests
end

section
/-! PROOFS. What the next event does, one rule for each kind of event the statements speak of, and the statements
of 10_state.md that follow from one event: the registers, the commands accepted and the state after reset. -/

namespace Sys2Proof.Machine

open Host (Outcome)

/-! ## The rules of single events -/

/-- A step performs the script's first event (R95). -/
theorem step_of_script {s : State} {e : Event} {rest : List Event} (h : s.script = e :: rest) :
    step s = perform e { s with script := rest } := by
  simp only [step, h]

/-- With the script empty SEQ has the turn (log 3). -/
theorem step_of_script_nil {s : State} (h : s.script = []) : step s = seqTurn s := by
  simp only [step, h]

theorem seqTurn_running {s : State} (h : s.busy = true) : seqTurn s = exec s.op s := by
  simp only [seqTurn, h, if_true]

/-- A write of `CMD` accepted with `BUSY = 0` runs the command of its word (R14, R97). -/
theorem perform_commandWrite {s : State} (v : Word) (h : s.busy = false) :
    perform (.host (.wr .cmd v)) s = exec (decodeCommand v) s := by
  simp only [perform, transact, regWrite, h, Bool.false_eq_true, if_false]

/-- A write of `LEN` accepted with `BUSY = 0` keeps the word's low bits (R15). -/
theorem perform_lengthWrite {s : State} (v : Word) (h : s.busy = false) :
    perform (.host (.wr .len v)) s = .next { s with len := v.setWidth Config.AW } := by
  simp only [perform, transact, regWrite, h, Bool.false_eq_true, if_false]

/-- A register read goes on at all times and only answers (R14 to R19, R96). -/
theorem perform_registerRead (r : Reg) (s : State) :
    perform (.host (.rd r)) s = .next (s.reply (.reg (regRead s r))) := rfl

/-- The bits of `STATUS` as a number (R16). -/
theorem statusWord_toNat (s : State) :
    (statusWord s).toNat = s.busy.toNat + 2 * s.done.toNat + 4 * s.err.code.toNat := by
  unfold statusWord
  cases s.err <;> cases s.done <;> cases s.busy <;> rfl

theorem opBit_setWidth_toNat (i : Instr) : (i.opBit.setWidth 32).toNat = i.opBit.toNat := by
  cases i <;> rfl

theorem pollDone_of_done {s : State} (h : s.done = true) :
    pollDone s = s.reply (.reg (statusWord s)) := by
  simp only [pollDone, h, if_true]

/-- A poll that finds `DONE = 0` gives SEQ one turn before the next poll (log 8). -/
theorem pollDone_of_not_done {s : State} (h : s.done = false) :
    pollDone s = { s.reply (.reg (statusWord s)) with script := .seq :: .wait :: s.script } := by
  simp only [pollDone, h, Bool.false_eq_true, if_false, State.reply_script]

/-- `WAIT` answers `STATUS` and at most puts events at the head of the script (log 8). -/
theorem pollDone_eq (s : State) :
    ∃ es, pollDone s = { s with script := es, replies := .reg (statusWord s) :: s.replies } := by
  rcases Bool.eq_false_or_eq_true s.done with hd | hd
  · exact ⟨_, pollDone_of_done hd⟩
  · exact ⟨_, pollDone_of_not_done hd⟩

/-! ## The statements about one event -/

/-- Settles O4: the event is the write, and the write is accepted. -/
theorem acceptedCommandRuns : Obligations.AcceptedCommandRuns := by
  intro s v rest hs hb
  exact (step_of_script hs).trans (perform_commandWrite (s := { s with script := rest }) v hb)

/-- A table word of 32 bits is the command word itself (log 13). -/
theorem decodeCommand_of_decodeTableWord {w : Nat} {i : Instr} (h : decodeTableWord 32 w = some i) :
    decodeCommand (BitVec.ofNat 32 w) = i := by
  unfold decodeTableWord at h
  split at h
  · exact Option.some.inj h
  · cases h

/-- Settles O6: the word put at the head of the script is written to an idle CORE. -/
theorem fetchedTableWordRuns : Obligations.FetchedTableWordRuns := by
  intro s w i hw hi
  have hhead : (s.withFetchWord 32 w).script = .host (.wr .cmd (BitVec.ofNat 32 w)) :: s.script := by
    rw [State.withFetchWord, Nat.mod_eq_of_lt hw]
  rw [step_of_script hhead, perform_commandWrite _ rfl, decodeCommand_of_decodeTableWord hi]
  rfl

/-- Settles O7: the reset state is a literal, and an empty buffer answers no read. -/
theorem resetStateValues : Obligations.ResetStateValues :=
  ⟨rfl, rfl, rfl, rfl, rfl, rfl, rfl, rfl, rfl, rfl, fun a => ⟨Memory.read_nil a, Memory.read_nil a⟩⟩

/-- Settles O9: the value is `regRead`'s, register by register. -/
theorem registerReadsReturnFields : Obligations.RegisterReadsReturnFields := by
  intro s r rest hs
  refine ⟨regRead s r, by rw [step_of_script hs, perform_registerRead]; rfl, ?_⟩
  cases r with
  | cmd =>
    rw [regRead, opBit_setWidth_toNat]
    cases s.op <;> rfl
  | len => exact BitVec.toNat_setWidth_of_le (by decide)
  | status =>
    rw [regRead, statusWord_toNat]
    cases s.err <;> rfl
  | olen => exact BitVec.toNat_setWidth_of_le (by decide)
  | erridx => exact BitVec.toNat_setWidth_of_le (by decide)
  | reserved5 | reserved6 | reserved7 => rfl

/-- Settles O10: narrowing the word to `AW` bits is its remainder. -/
theorem lenWriteTakesLowBits : Obligations.LenWriteTakesLowBits := by
  intro s v rest hs hb
  exact ⟨_, (step_of_script hs).trans (perform_lengthWrite (s := { s with script := rest }) v hb),
    BitVec.toNat_setWidth _ v, rfl⟩

/-- Settles O43: all registers are 0 and both buffers are empty. -/
theorem invariantAtReset : Obligations.InvariantAtReset where
  not_both := by decide
  running_clear h := by cases h
  running_length h := by cases h
  running_ipos h := by cases h
  running_opos h := by cases h
  running_converted h := by cases h
  error_ended h := absurd rfl h
  idle_clear _ _ := ⟨rfl, rfl, rfl⟩
  index_clear _ := rfl
  result_written := ⟨[], rfl⟩
  ibuf_wf := Memory.wf_nil _
  obuf_wf := Memory.wf_nil _

/-- Settles O50: of what an event can do, only a start, a turn of SEQ in a running operation and a reset touch
these fields. -/
theorem resultsAreSticky : Obligations.ResultsAreSticky := by
  intro s t hb hreset hstart hstep
  cases step_eq_next hstep with
  | started v he => exact absurd he (hstart v)
  | sequenced _ hb' => exact absurd (hb.symm.trans hb') (by decide)
  | wasReset he => exact absurd he hreset
  | polled _ ht =>
    obtain ⟨es, hes⟩ := pollDone_eq (popEvent s)
    subst ht
    simp [hes, hb]
  | lengthWritten v _ _ ht | inputWritten a v _ _ ht | replied r _ ht | nothing _ ht =>
    subst ht
    simp [hb]

/-- With the invariant the status fields stand in one of six combinations (R26). -/
theorem Inv.statusWord_mem {s : State} (h : Inv s) :
    (statusWord s).toNat ∈ [0x0, 0x1, 0x2, 0x6, 0xA, 0xE] := by
  rw [statusWord_toNat]
  cases he : s.err with
  | noError =>
    have hboth := h.not_both
    revert hboth
    cases s.busy <;> cases s.done <;> decide
  | invalidLength | invalidCharacter | valueOverflow =>
    obtain ⟨hd, hb, -⟩ := h.error_ended (by rw [he]; decide)
    rw [hd, hb]
    decide

/-- Settles O53: the read answers the status word. -/
theorem statusValuesReadable : Obligations.StatusValuesReadable := by
  intro s t rest hinv hs hstep
  rw [step_of_script hs, perform_registerRead] at hstep
  cases hstep
  exact ⟨statusWord s, rfl, hinv.statusWord_mem⟩

end Sys2Proof.Machine
end

section
/-! PROOFS. The message functions of both commands at once: how `convert` treats a concatenation of whole groups, one
group, and the whole groups before the first bad one (40_encoder.md R74, R76, 41_decoder.md R88, R91). -/

namespace Sys2Proof.Machine

/-! ## The errors of a message -/

/-- The `ERR` value an error is reported as (R115). -/
def Z85Error.kind : Z85Error → ErrKind
  | .invalidLength => .invalidLength
  | .invalidCharacter _ => .invalidCharacter
  | .valueOverflow _ => .valueOverflow

/-- The `ERRIDX` value an error is reported with (R18). -/
def Z85Error.index : Z85Error → Nat
  | .invalidLength => 0
  | .invalidCharacter idx => idx
  | .valueOverflow idx => idx

/-- The same error in a message that has `n` more bytes in front. -/
def Z85Error.shift (n : Nat) : Z85Error → Z85Error
  | .invalidLength => .invalidLength
  | .invalidCharacter idx => .invalidCharacter (n + idx)
  | .valueOverflow idx => .valueOverflow (n + idx)

@[simp] theorem Z85Error.kind_shift (n : Nat) (e : Z85Error) : (e.shift n).kind = e.kind := by
  cases e <;> rfl

@[simp] theorem Z85Error.shift_eq_invalidLength {n : Nat} {e : Z85Error} :
    e.shift n = .invalidLength ↔ e = .invalidLength := by
  cases e <;> simp [shift]

theorem Z85Error.index_shift {n : Nat} {e : Z85Error} (h : e ≠ .invalidLength) :
    (e.shift n).index = n + e.index := by
  cases e with
  | invalidLength => exact absurd rfl h
  | invalidCharacter idx => rfl
  | valueOverflow idx => rfl

theorem Z85Error.kind_ne_noError (e : Z85Error) : e.kind ≠ .noError := by
  cases e <;> simp [kind]

theorem Z85Error.kind_eq_invalidLength {e : Z85Error} : e.kind = .invalidLength ↔ e = .invalidLength := by
  cases e <;> simp [kind]

/-! ## Group sizes -/

theorem groupIn_pos (i : Instr) : 0 < i.groupIn := by
  cases i <;> decide

theorem lengthLegal_iff {i : Instr} {len : IAddr} : lengthLegal i len = true ↔ len.toNat % i.groupIn = 0 := by
  rw [lengthLegal, beq_iff_eq]

theorem lengthLegal_eq_false_iff {i : Instr} {len : IAddr} :
    lengthLegal i len = false ↔ len.toNat % i.groupIn ≠ 0 := by
  rw [lengthLegal, beq_eq_false_iff_ne]

/-! ## Concatenation -/

/-- The encoder's loop on whole groups followed by more (R76 item 6). -/
theorem encodeGroups_append (m' : List Byte) : ∀ m : List Byte, m.length % 4 = 0 →
    encodeGroups (m ++ m') = encodeGroups m ++ encodeGroups m' := by
  apply rawGroups_induction
  · rfl
  · intro b0 b1 b2 b3 rest ih
    simp [encodeGroups_cons, ih]

/-- The decoder's loop started at a later index reports later indices. -/
theorem decodeGroups_add (n : Nat) : ∀ t : List Byte, t.length % 5 = 0 →
    ∀ idx, decodeGroups (n + idx) t = (decodeGroups idx t).mapError (.shift n) := by
  apply textGroups_induction
  · exact fun idx => rfl
  · intro c0 c1 c2 c3 c4 rest ih idx
    rw [decodeGroups_cons, decodeGroups_cons, Nat.add_assoc, ih]
    cases decBlock ⟨c0, c1, c2, c3, c4⟩ with
    | invalidCharacter k => simp [Except.mapError, Z85Error.shift, Nat.add_assoc]
    | valueOverflow => rfl
    | ok g => cases decodeGroups (idx + 5) rest <;> rfl

/-- The decoder's loop on whole groups followed by more (R91 item 5). -/
theorem decodeGroups_append (t' : List Byte) : ∀ t : List Byte, t.length % 5 = 0 → ∀ idx,
    decodeGroups idx (t ++ t') = (do
      let out ← decodeGroups idx t
      let out' ← decodeGroups (idx + t.length) t'
      return out ++ out') := by
  apply textGroups_induction
  · intro idx
    simp only [List.nil_append, decodeGroups_nil, List.length_nil, Nat.add_zero]
    cases decodeGroups idx t' <;> rfl
  · intro c0 c1 c2 c3 c4 rest ih idx
    have hidx : idx + 5 + rest.length = idx + (c0 :: c1 :: c2 :: c3 :: c4 :: rest).length := by
      simp only [List.length_cons]; omega
    simp only [List.cons_append]
    rw [decodeGroups_cons, decodeGroups_cons, ih, hidx]
    cases decBlock ⟨c0, c1, c2, c3, c4⟩ with
    | invalidCharacter k => rfl
    | valueOverflow => rfl
    | ok g =>
      cases decodeGroups (idx + 5) rest with
      | error e => rfl
      | ok out =>
        cases decodeGroups (idx + (c0 :: c1 :: c2 :: c3 :: c4 :: rest).length) t' with
        | error e => rfl
        | ok out' => simp [bind, Except.bind, pure, Except.pure]

/-- Both commands on a concatenation of messages of whole groups. -/
theorem convert_append {i : Instr} {m m' : List Byte} (h : m.length % i.groupIn = 0)
    (h' : m'.length % i.groupIn = 0) :
    convert i (m ++ m') = (do
      let out ← convert i m
      let out' ← (convert i m').mapError (.shift m.length)
      return out ++ out') := by
  have hlen : (m ++ m').length % i.groupIn = 0 := by rw [List.length_append, Nat.add_mod, h, h']; simp
  cases i with
  | encode =>
    simp only [Instr.groupIn] at h h' hlen
    simp only [convert, z85Encode, h, h', hlen, if_true, encodeGroups_append m' m h]
    rfl
  | decode =>
    simp only [Instr.groupIn] at h h' hlen
    have hadd := decodeGroups_add m.length m' h' 0
    simp only [convert, z85Decode, h, h', hlen, if_true, decodeGroups_append m' m h, Nat.zero_add,
      ← hadd, Nat.add_zero]

theorem convert_of_illegal {i : Instr} {m : List Byte} (h : m.length % i.groupIn ≠ 0) :
    convert i m = .error .invalidLength := by
  cases i with
  | encode => exact if_neg h
  | decode => exact if_neg h

theorem length_mod_of_convert_ok {i : Instr} {m out : List Byte} (h : convert i m = .ok out) :
    m.length % i.groupIn = 0 := by
  by_contra hl
  rw [convert_of_illegal hl] at h
  cases h

@[simp] theorem convert_nil (i : Instr) : convert i [] = .ok [] := by
  cases i <;> rfl

theorem convert_append_ok {i : Instr} {m m' out out' : List Byte} (h : convert i m = .ok out)
    (h' : convert i m' = .ok out') : convert i (m ++ m') = .ok (out ++ out') := by
  rw [convert_append (length_mod_of_convert_ok h) (length_mod_of_convert_ok h'), h, h']
  rfl

/-- A bad group after converted ones is reported at its index in the whole message. -/
theorem convert_append_error {i : Instr} {m m' out : List Byte} {e : Z85Error}
    (h : convert i m = .ok out) (hl : m'.length % i.groupIn = 0) (h' : convert i m' = .error e) :
    convert i (m ++ m') = .error (e.shift m.length) := by
  rw [convert_append (length_mod_of_convert_ok h) hl, h, h']
  rfl

/-- Nothing after a bad group changes what is reported. -/
theorem convert_append_of_error {i : Instr} {m m' : List Byte} {e : Z85Error}
    (hl : m.length % i.groupIn = 0) (hl' : m'.length % i.groupIn = 0) (h : convert i m = .error e) :
    convert i (m ++ m') = .error e := by
  rw [convert_append hl hl', h]
  rfl

/-! ## One group -/

@[simp] theorem length_rawGroup_bytes (g : RawGroup) : g.bytes.length = 4 := rfl

@[simp] theorem length_textGroup_bytes (c : TextGroup) : c.bytes.length = 5 := rfl

theorem convert_rawGroup (g : RawGroup) : convert .encode g.bytes = .ok (encBlock g).bytes :=
  z85Encode_eq_ok.mpr ⟨by rw [length_rawGroup_bytes], rfl⟩

/-- What `DEC_BLOCK` answers, as the answer of the message function on that one group (R88). -/
def BlockResult.answer : BlockResult → Except Z85Error (List Byte)
  | .ok g => .ok g.bytes
  | .invalidCharacter k => .error (.invalidCharacter k)
  | .valueOverflow => .error (.valueOverflow 0)

theorem convert_textGroup (c : TextGroup) : convert .decode c.bytes = (decBlock c).answer := by
  have hc : convert .decode c.bytes = decodeGroups 0 [c.c0, c.c1, c.c2, c.c3, c.c4] :=
    if_pos (by rw [length_textGroup_bytes])
  rw [hc, decodeGroups_cons]
  cases decBlock ⟨c.c0, c.c1, c.c2, c.c3, c.c4⟩ with
  | invalidCharacter k => simp [BlockResult.answer]
  | valueOverflow => rfl
  | ok g => simp [BlockResult.answer]

/-- A list of a raw group's length is a raw group. -/
theorem exists_rawGroup {bs : List Byte} (h : bs.length = 4) : ∃ g : RawGroup, bs = g.bytes := by
  match bs, h with
  | [b0, b1, b2, b3], _ => exact ⟨⟨b0, b1, b2, b3⟩, rfl⟩

/-- A list of a text group's length is a text group. -/
theorem exists_textGroup {bs : List Byte} (h : bs.length = 5) : ∃ c : TextGroup, bs = c.bytes := by
  match bs, h with
  | [c0, c1, c2, c3, c4], _ => exact ⟨⟨c0, c1, c2, c3, c4⟩, rfl⟩

/-- One group gives one group. -/
theorem length_of_convert_group {i : Instr} {bs out : List Byte} (hl : bs.length = i.groupIn)
    (h : convert i bs = .ok out) : out.length = i.groupOut := by
  cases i with
  | encode =>
    obtain ⟨g, rfl⟩ := exists_rawGroup hl
    rw [convert_rawGroup] at h
    cases h
    rfl
  | decode =>
    obtain ⟨c, rfl⟩ := exists_textGroup hl
    rw [convert_textGroup] at h
    cases hd : decBlock c <;> rw [hd] at h <;> cases h
    rfl

/-- A group's error is one of its characters or its value, and lies inside it. -/
theorem convert_group_error {i : Instr} {bs : List Byte} {e : Z85Error} (hl : bs.length = i.groupIn)
    (h : convert i bs = .error e) : e ≠ .invalidLength ∧ e.index < i.groupIn := by
  cases i with
  | encode =>
    obtain ⟨g, rfl⟩ := exists_rawGroup hl
    rw [convert_rawGroup] at h
    cases h
  | decode =>
    obtain ⟨c, rfl⟩ := exists_textGroup hl
    rw [convert_textGroup] at h
    cases hd : decBlock c with
    | ok g => rw [hd] at h; cases h
    | invalidCharacter k => rw [hd] at h; cases h; exact ⟨by simp, k.isLt⟩
    | valueOverflow => rw [hd] at h; cases h; exact ⟨by simp, by decide⟩

/-! ## The groups of a message in order -/

/-- Group `k` of a message. -/
def groupAt (i : Instr) (m : List Byte) (k : Nat) : List Byte := (m.drop (i.groupIn * k)).take i.groupIn

/-- The groups of a message before group `k`. -/
def groupsBefore (i : Instr) (m : List Byte) (k : Nat) : List Byte := m.take (i.groupIn * k)

section
variable {i : Instr} {m : List Byte} {k : Nat}

@[simp] theorem groupsBefore_zero : groupsBefore i m 0 = [] := by
  simp [groupsBefore]

theorem groupsBefore_succ : groupsBefore i m (k + 1) = groupsBefore i m k ++ groupAt i m k := by
  rw [groupsBefore, Nat.mul_succ, List.take_add]
  rfl

theorem groupsBefore_all (h : m.length % i.groupIn = 0) : groupsBefore i m (m.length / i.groupIn) = m := by
  rw [groupsBefore, Nat.mul_div_cancel' (Nat.dvd_of_mod_eq_zero h), List.take_length]

theorem length_groupsBefore (hk : k ≤ m.length / i.groupIn) : (groupsBefore i m k).length = i.groupIn * k :=
  List.length_take_of_le ((Nat.mul_le_mul_left _ hk).trans (Nat.mul_div_le _ _))

theorem length_groupAt (hk : k < m.length / i.groupIn) : (groupAt i m k).length = i.groupIn := by
  have h := (Nat.mul_le_mul_left i.groupIn hk).trans (Nat.mul_div_le m.length i.groupIn)
  rw [Nat.mul_succ] at h
  rw [groupAt, List.length_take, List.length_drop]
  omega

theorem length_groupsBefore_mod (hk : k ≤ m.length / i.groupIn) :
    (groupsBefore i m k).length % i.groupIn = 0 := by
  rw [length_groupsBefore hk, Nat.mul_mod_right]

/-- Each group before a whole number of converted ones has been converted, and those before it. -/
theorem convert_groupsBefore_succ {out : List Byte} (hk : k < m.length / i.groupIn)
    (h : convert i (groupsBefore i m (k + 1)) = .ok out) :
    ∃ out₀ out₁, convert i (groupsBefore i m k) = .ok out₀ ∧ convert i (groupAt i m k) = .ok out₁ ∧
      out = out₀ ++ out₁ := by
  have hpre := length_groupsBefore_mod hk.le
  have hgrp : (groupAt i m k).length % i.groupIn = 0 := by rw [length_groupAt hk, Nat.mod_self]
  rw [groupsBefore_succ] at h
  cases h₀ : convert i (groupsBefore i m k) with
  | error e => rw [convert_append_of_error hpre hgrp h₀] at h; cases h
  | ok out₀ =>
    cases h₁ : convert i (groupAt i m k) with
    | error e => rw [convert_append_error h₀ hgrp h₁] at h; cases h
    | ok out₁ =>
      rw [convert_append_ok h₀ h₁] at h
      cases h
      exact ⟨out₀, out₁, rfl, rfl, rfl⟩

/-- Whole groups before converted ones are converted. -/
theorem convert_groupsBefore_of_le {n : Nat} {out : List Byte} (hkn : k ≤ n)
    (hn : n ≤ m.length / i.groupIn) (h : convert i (groupsBefore i m n) = .ok out) :
    ∃ out₀, convert i (groupsBefore i m k) = .ok out₀ := by
  induction n generalizing out with
  | zero => obtain rfl := Nat.le_zero.mp hkn; exact ⟨out, h⟩
  | succ n ih =>
    rcases Nat.of_le_succ hkn with hle | rfl
    · obtain ⟨out₀, _, h₀, _, _⟩ := convert_groupsBefore_succ hn h
      exact ih hle (Nat.le_of_succ_le hn) h₀
    · exact ⟨out, h⟩

/-- What whole groups convert to is as long as R26 item 3 says. -/
theorem length_of_convert_groupsBefore {out : List Byte} (hk : k ≤ m.length / i.groupIn)
    (h : convert i (groupsBefore i m k) = .ok out) : out.length = i.groupOut * k := by
  induction k generalizing out with
  | zero => rw [groupsBefore_zero, convert_nil] at h; cases h; rfl
  | succ k ih =>
    obtain ⟨out₀, out₁, h₀, h₁, rfl⟩ := convert_groupsBefore_succ hk h
    rw [List.length_append, ih (Nat.le_of_succ_le hk) h₀, length_of_convert_group (length_groupAt hk) h₁,
      Nat.mul_succ]

/-- A message of whole groups fails at its first bad group: those before it convert (R106, R121). -/
theorem exists_badGroup {e : Z85Error} (hk : k ≤ m.length / i.groupIn)
    (h : convert i (groupsBefore i m k) = .error e) :
    ∃ j < k, ∃ out e', convert i (groupsBefore i m j) = .ok out ∧ convert i (groupAt i m j) = .error e' ∧
      e = e'.shift (i.groupIn * j) := by
  induction k with
  | zero => rw [groupsBefore_zero, convert_nil] at h; cases h
  | succ k ih =>
    have hpre := length_groupsBefore_mod (Nat.le_of_succ_le hk)
    have hgrp : (groupAt i m k).length % i.groupIn = 0 := by rw [length_groupAt hk, Nat.mod_self]
    rw [groupsBefore_succ] at h
    cases h₀ : convert i (groupsBefore i m k) with
    | error e₀ =>
      rw [convert_append_of_error hpre hgrp h₀] at h
      cases h
      obtain ⟨j, hj, hbad⟩ := ih (Nat.le_of_succ_le hk) h₀
      exact ⟨j, Nat.lt_succ_of_lt hj, hbad⟩
    | ok out₀ =>
      cases h₁ : convert i (groupAt i m k) with
      | ok out₁ => rw [convert_append_ok h₀ h₁] at h; cases h
      | error e₁ =>
        rw [convert_append_error h₀ hgrp h₁, length_groupsBefore (Nat.le_of_succ_le hk)] at h
        cases h
        exact ⟨k, Nat.lt_succ_self k, out₀, e₁, h₀, h₁, rfl⟩

/-- The length law of both message functions (R76 item 1, R91 item 1). -/
theorem length_of_convert {out : List Byte} (h : convert i m = .ok out) :
    out.length = i.groupOut * (m.length / i.groupIn) := by
  rw [← groupsBefore_all (length_mod_of_convert_ok h)] at h
  exact length_of_convert_groupsBefore le_rfl h

/-- An error of a message of legal length: its index lies in the first bad group, at the offset that group
alone gives, and the groups before it convert (R121). -/
theorem convert_eq_error {e : Z85Error} (hl : m.length % i.groupIn = 0) (h : convert i m = .error e) :
    e ≠ .invalidLength ∧ e.index / i.groupIn < m.length / i.groupIn ∧ ∃ out e',
      convert i (groupsBefore i m (e.index / i.groupIn)) = .ok out ∧
        convert i (groupAt i m (e.index / i.groupIn)) = .error e' ∧
        e = e'.shift (i.groupIn * (e.index / i.groupIn)) := by
  rw [← groupsBefore_all hl] at h
  obtain ⟨j, hj, out, e', hout, he', rfl⟩ := exists_badGroup le_rfl h
  obtain ⟨hne, hidx⟩ := convert_group_error (length_groupAt hj) he'
  have hgroup : (e'.shift (i.groupIn * j)).index / i.groupIn = j := by
    rw [Z85Error.index_shift hne, Nat.mul_add_div (groupIn_pos i), Nat.div_eq_of_lt hidx, Nat.add_zero]
  rw [hgroup]
  exact ⟨by simpa using hne, hj, out, e', hout, he', rfl⟩

end

end Sys2Proof.Machine
end

section
/-! PROOFS. The group step of both commands at once, in terms of `convert` on its group, and the invariant of
10_state.md R26 kept by everything an event can do. -/

namespace Sys2Proof.Machine

open Host (Outcome)

/-! ## The group step of both commands -/

/-- What a group step leaves in `ACC`: only the decoder's uses it (R100). -/
def groupAcc : Instr → List Byte → Acc → Acc
  | .decode, [c0, c1, c2, c3, c4], _ => accAfter ⟨c0, c1, c2, c3, c4⟩
  | _, _, acc => acc

/-- What a group step makes of the group it has read: the group converted, or its error raised with no cell
written and no advance (R99, R100). -/
def groupEffect (i : Instr) (s : State) (bs : List Byte) : State :=
  match convert i bs with
  | .ok out =>
    { s with acc := groupAcc i bs s.acc, obuf := s.obuf.writeN s.opos.toNat out,
             ipos := s.ipos + BitVec.ofNat Config.AW i.groupIn,
             opos := s.opos + BitVec.ofNat (Config.AW + 1) i.groupOut }
  | .error e =>
    raise e.kind (BitVec.ofNat Config.AW (s.ipos.toNat + e.index)) { s with acc := groupAcc i bs s.acc }

theorem groupEffect_of_ok {i : Instr} {s : State} {bs out : List Byte} (h : convert i bs = .ok out) :
    groupEffect i s bs =
      { s with acc := groupAcc i bs s.acc, obuf := s.obuf.writeN s.opos.toNat out,
               ipos := s.ipos + BitVec.ofNat Config.AW i.groupIn,
               opos := s.opos + BitVec.ofNat (Config.AW + 1) i.groupOut } := by
  simp only [groupEffect, h]

theorem groupEffect_of_error {i : Instr} {s : State} {bs : List Byte} {e : Z85Error}
    (h : convert i bs = .error e) :
    groupEffect i s bs =
      raise e.kind (BitVec.ofNat Config.AW (s.ipos.toNat + e.index)) { s with acc := groupAcc i bs s.acc } := by
  simp only [groupEffect, h]

/-- The effect of a decode group step is the one both commands share. -/
theorem decodeEffect_eq (s : State) (c : TextGroup) : decodeEffect s c = groupEffect .decode s c.bytes := by
  cases hd : decBlock c with
  | ok g =>
    rw [groupEffect_of_ok (by rw [convert_textGroup, hd]; rfl)]
    simp only [decodeEffect, hd]
    rfl
  | invalidCharacter k =>
    rw [groupEffect_of_error (by rw [convert_textGroup, hd]; rfl)]
    simp only [decodeEffect, hd]
    rfl
  | valueOverflow =>
    have hidx : BitVec.ofNat Config.AW (s.ipos.toNat + (Z85Error.valueOverflow 0).index) = s.ipos := by
      rw [Z85Error.index, Nat.add_zero, BitVec.ofNat_toNat, BitVec.setWidth_eq]
    rw [groupEffect_of_error (by rw [convert_textGroup, hd]; rfl), hidx]
    simp only [decodeEffect, hd]
    rfl

/-- A group step goes on exactly with `groupEffect` of the written group at `IPOS` (R98 to R100). -/
theorem groupStep_eq_next {i : Instr} {s t : State} :
    groupStep i s = .next t ↔
      ∃ bs, s.ipos.toNat + i.groupIn ≤ Config.ibufSize ∧
        s.ibuf.readN s.ipos.toNat i.groupIn = some bs ∧
        ((∃ out, convert i bs = .ok out) → s.opos.toNat + i.groupOut ≤ Config.obufSize) ∧
        t = groupEffect i s bs := by
  cases i with
  | encode =>
    refine encodeGroup_eq_next.trans ⟨?_, ?_⟩
    · rintro ⟨g, hin, hread, hout, rfl⟩
      exact ⟨g.bytes, hin, hread, fun _ => hout, (groupEffect_of_ok (convert_rawGroup g)).symm⟩
    · rintro ⟨bs, hin, hread, hout, rfl⟩
      obtain ⟨g, rfl⟩ := exists_rawGroup (Memory.readN_length hread)
      exact ⟨g, hin, hread, hout ⟨_, convert_rawGroup g⟩, groupEffect_of_ok (convert_rawGroup g)⟩
  | decode =>
    have hok (c : TextGroup) : (∃ g, decBlock c = .ok g) ↔ ∃ out, convert .decode c.bytes = .ok out := by
      rw [convert_textGroup]
      cases decBlock c <;> simp [BlockResult.answer]
    refine decodeGroup_eq_next.trans ⟨?_, ?_⟩
    · rintro ⟨c, hin, hread, hout, rfl⟩
      exact ⟨c.bytes, hin, hread, fun h => hout ((hok c).mpr h), decodeEffect_eq s c⟩
    · rintro ⟨bs, hin, hread, hout, rfl⟩
      obtain ⟨c, rfl⟩ := exists_textGroup (Memory.readN_length hread)
      exact ⟨c, hin, hread, fun h => hout ((hok c).mp h), (decodeEffect_eq s c).symm⟩

/-! ## What the invariant says of a running operation's next group -/

/-- Before the end there is a whole group left (R31, R98). -/
theorem Inv.ipos_add_le {s : State} (h : Inv s) (hb : s.busy = true) (hl : s.ipos.toNat < s.len.toNat) :
    s.ipos.toNat + s.op.groupIn ≤ s.len.toNat := by
  have hlen := h.running_length hb
  have hipos := (h.running_ipos hb).1
  cases hop : s.op <;> simp only [hop, Instr.groupIn] at * <;> omega

/-- The next group's result lies inside `OBUF` (R31). -/
theorem Inv.opos_add_lt {s : State} (h : Inv s) (hb : s.busy = true) (hl : s.ipos.toNat < s.len.toNat) :
    s.opos.toNat + s.op.groupOut < 131072 := by
  have hlt := IAddr.toNat_lt s.len
  have hfit := h.ipos_add_le hb hl
  have hopos := h.running_opos hb
  cases hop : s.op <;> simp only [hop, Instr.groupIn, Instr.groupOut] at * <;> omega

theorem ipos_add_toNat {i : Instr} {a : IAddr} (h : a.toNat + i.groupIn < 65536) :
    (a + BitVec.ofNat Config.AW i.groupIn).toNat = a.toNat + i.groupIn := by
  rw [BitVec.toNat_add, BitVec.toNat_ofNat, Nat.add_mod_mod, Config.two_pow_AW, Nat.mod_eq_of_lt h]

theorem opos_add_toNat {i : Instr} {a : OAddr} (h : a.toNat + i.groupOut < 131072) :
    (a + BitVec.ofNat (Config.AW + 1) i.groupOut).toNat = a.toNat + i.groupOut := by
  rw [BitVec.toNat_add, BitVec.toNat_ofNat, Nat.add_mod_mod, Config.two_pow_AW_succ, Nat.mod_eq_of_lt h]

theorem Inv.not_done {s : State} (h : Inv s) (hb : s.busy = true) : s.done = false :=
  Bool.eq_false_iff.mpr fun hd => h.not_both ⟨hb, hd⟩

/-! ## Each kind of move keeps the invariant -/

/-- The invariant does not look at the host's script and replies. -/
theorem Inv.host {s : State} (h : Inv s) (es : List Event) (rs : List Reply) :
    Inv { s with script := es, replies := rs } where
  not_both := h.not_both
  running_clear := h.running_clear
  running_length := h.running_length
  running_ipos := h.running_ipos
  running_opos := h.running_opos
  running_converted := h.running_converted
  error_ended := h.error_ended
  idle_clear := h.idle_clear
  index_clear := h.index_clear
  result_written := h.result_written
  ibuf_wf := h.ibuf_wf
  obuf_wf := h.obuf_wf

/-- With `BUSY = 0` the invariant does not look at `LEN`, and of `IBUF` only at its form (R96). -/
theorem Inv.idleInput {s : State} (h : Inv s) (hb : s.busy = false) (len : IAddr) {m : Memory}
    (hm : Memory.wf Config.ibufSize m = true) : Inv { s with len := len, ibuf := m } where
  not_both := h.not_both
  running_clear := h.running_clear
  running_length h' := absurd (hb.symm.trans h') (by decide)
  running_ipos h' := absurd (hb.symm.trans h') (by decide)
  running_opos := h.running_opos
  running_converted h' := absurd (hb.symm.trans h') (by decide)
  error_ended := h.error_ended
  idle_clear := h.idle_clear
  index_clear := h.index_clear
  result_written := h.result_written
  ibuf_wf := hm
  obuf_wf := h.obuf_wf

/-- An operation that has just started has converted nothing (R97). -/
theorem inv_started {i : Instr} {s : State} (hl : s.len.toNat % i.groupIn = 0)
    (hi : Memory.wf Config.ibufSize s.ibuf = true) (ho : Memory.wf Config.obufSize s.obuf = true) :
    Inv { clearForStart s with op := i, busy := true } where
  not_both := by simp
  running_clear _ := ⟨rfl, rfl, rfl⟩
  running_length _ := hl
  running_ipos _ := ⟨Nat.zero_mod _, Nat.zero_le _⟩
  running_opos _ := by simp
  running_converted _ := ⟨[], [], rfl, convert_nil i, rfl⟩
  error_ended h := absurd rfl h
  idle_clear h := by cases h
  index_clear _ := rfl
  result_written := ⟨[], rfl⟩
  ibuf_wf := hi
  obuf_wf := ho

/-- An error ends the operation, whatever the state was; its index must fit its kind (R18, R118). -/
theorem inv_raise {k : ErrKind} {idx : IAddr} {s : State} (hk : k ≠ .noError)
    (hidx : k = .invalidLength → idx = 0) (hi : Memory.wf Config.ibufSize s.ibuf = true)
    (ho : Memory.wf Config.obufSize s.obuf = true) : Inv (raise k idx s) where
  not_both := by simp
  running_clear h := by cases h
  running_length h := by cases h
  running_ipos h := by cases h
  running_opos h := by cases h
  running_converted h := by cases h
  error_ended _ := ⟨rfl, rfl, rfl⟩
  idle_clear _ h := by cases h
  index_clear h := h.elim (absurd · hk) hidx
  result_written := ⟨[], rfl⟩
  ibuf_wf := hi
  obuf_wf := ho

theorem Inv.start {s : State} (h : Inv s) (i : Instr) : Inv (start i s) := by
  cases hl : lengthLegal i s.len with
  | true =>
    rw [start_of_legal hl]
    exact inv_started (lengthLegal_iff.mp hl) h.ibuf_wf h.obuf_wf
  | false =>
    rw [start_of_illegal hl]
    exact inv_raise (by decide) (fun _ => rfl) h.ibuf_wf h.obuf_wf

/-- The finish step publishes what the groups have written (R101). -/
theorem Inv.finish {s : State} (h : Inv s) (hb : s.busy = true) : Inv (finish s) := by
  obtain ⟨herr, -, hidx⟩ := h.running_clear hb
  obtain ⟨m, out, -, -, hout⟩ := h.running_converted hb
  exact {
    not_both := by simp
    running_clear := fun h' => by cases h'
    running_length := fun h' => by cases h'
    running_ipos := fun h' => by cases h'
    running_opos := fun h' => by cases h'
    running_converted := fun h' => by cases h'
    error_ended := fun h' => absurd herr h'
    idle_clear := fun _ h' => by cases h'
    index_clear := fun _ => hidx
    result_written := ⟨out, hout⟩
    ibuf_wf := h.ibuf_wf
    obuf_wf := h.obuf_wf }

/-- One more group converted extends R26 item 3 to the new `IPOS` and `OPOS`. -/
theorem Converted.groupEffect {s : State} {bs out : List Byte} (h : Converted s)
    (hin : s.ipos.toNat + s.op.groupIn < 65536) (hout : s.opos.toNat + s.op.groupOut < 131072)
    (hbs : s.ibuf.readN s.ipos.toNat s.op.groupIn = some bs) (hc : convert s.op bs = .ok out) :
    Converted (groupEffect s.op s bs) := by
  obtain ⟨m, pre, hm, hpre, hobuf⟩ := h
  have hlen : out.length = s.op.groupOut := length_of_convert_group (Memory.readN_length hbs) hc
  have hkept : (s.obuf.writeN s.opos.toNat out).readN 0 s.opos.toNat = some pre := by
    rw [Memory.readN_writeN_apart _ _ _ _ _ (.inl (Nat.zero_add _).le), hobuf]
  have hnew : (s.obuf.writeN s.opos.toNat out).readN s.opos.toNat s.op.groupOut = some out :=
    hlen ▸ Memory.readN_writeN_same s.obuf s.opos.toNat out
  rw [groupEffect_of_ok hc]
  refine ⟨m ++ bs, pre ++ out, ?_, convert_append_ok hpre hc, ?_⟩
  · rw [ipos_add_toNat hin]
    exact Memory.readN_add _ _ _ _ _ _ hm (by rwa [Nat.zero_add])
  · rw [opos_add_toNat hout]
    exact Memory.readN_add _ _ _ _ _ _ hkept (by rwa [Nat.zero_add])

/-- A group step keeps the invariant: a good group extends what is converted, a bad one ends the operation. -/
theorem Inv.groupStep {s t : State} (h : Inv s) (hb : s.busy = true) (hl : s.ipos.toNat < s.len.toNat)
    (hstep : groupStep s.op s = .next t) : Inv t := by
  obtain ⟨bs, -, hbs, -, rfl⟩ := groupStep_eq_next.mp hstep
  have hfit := h.ipos_add_le hb hl
  have hin : s.ipos.toNat + s.op.groupIn < 65536 := hfit.trans_lt (IAddr.toNat_lt _)
  have hout := h.opos_add_lt hb hl
  cases hc : convert s.op bs with
  | error e =>
    rw [groupEffect_of_error hc]
    obtain ⟨hne, -⟩ := convert_group_error (Memory.readN_length hbs) hc
    exact inv_raise e.kind_ne_noError (fun hk => absurd (Z85Error.kind_eq_invalidLength.mp hk) hne)
      h.ibuf_wf h.obuf_wf
  | ok out =>
    have hconv := (h.running_converted hb).groupEffect hin hout hbs hc
    have hlen : out.length = s.op.groupOut := length_of_convert_group (Memory.readN_length hbs) hc
    obtain ⟨hmod, -⟩ := h.running_ipos hb
    rw [groupEffect_of_ok hc] at hconv ⊢
    exact {
      not_both := h.not_both
      running_clear := h.running_clear
      running_length := h.running_length
      running_ipos := fun _ => by
        simp only [ipos_add_toNat hin]
        exact ⟨by rw [Nat.add_mod_right, hmod], hfit⟩
      running_opos := fun _ => by
        simp only [ipos_add_toNat hin, opos_add_toNat hout]
        rw [h.running_opos hb, Nat.add_div_right _ (groupIn_pos _), Nat.succ_mul]
      running_converted := fun _ => hconv
      error_ended := h.error_ended
      idle_clear := h.idle_clear
      index_clear := h.index_clear
      result_written := ⟨[], by simp only [(h.running_clear hb).2.1]; rfl⟩
      ibuf_wf := h.ibuf_wf
      obuf_wf := Memory.wf_writeN (by rw [hlen]; exact hout.le) h.obuf_wf }

/-- A move of the running operation keeps the invariant (R98). -/
theorem Inv.exec {s t : State} (h : Inv s) (hb : s.busy = true) (hstep : exec s.op s = .next t) : Inv t := by
  rcases exec_eq_next hstep with ⟨hb', -⟩ | ⟨-, -, rfl⟩ | ⟨-, hl, hg⟩
  · exact absurd (hb'.symm.trans hb) (by decide)
  · exact h.finish hb
  · exact h.groupStep hb hl hg

/-- Whatever an event does keeps the invariant. -/
theorem Inv.moved {e : Event} {s t : State} (h : Inv s) (hm : Moved e s t) : Inv t := by
  cases hm with
  | started v _ hb ht => exact ht ▸ h.start _
  | lengthWritten v _ hb ht => exact ht ▸ h.idleInput hb _ h.ibuf_wf
  | inputWritten a v _ hb ht => exact ht ▸ h.idleInput hb s.len (Memory.wf_write v a.isLt h.ibuf_wf)
  | replied r _ ht => exact ht ▸ h.host s.script _
  | polled _ ht =>
    obtain ⟨es, hes⟩ := pollDone_eq s
    exact ht ▸ hes ▸ h.host es _
  | sequenced _ hb ht => exact h.exec hb ht
  | wasReset _ ht => exact ht ▸ Inv.host invariantAtReset s.script s.replies
  | nothing _ ht => exact ht ▸ h

/-- Settles O44: taking an event off the script keeps the invariant, and so does what the event does. -/
theorem stepKeepsInvariant : Obligations.StepKeepsInvariant := by
  intro s t h hstep
  exact Inv.moved (h.host s.script.tail s.replies) (step_eq_next hstep)

/-- Settles O24: only the finish step ends an operation without an error, with `IPOS` at `LEN`. -/
theorem finishedLengthIsExact : Obligations.FinishedLengthIsExact := by
  intro s t h hb hstep hdone herr
  rcases exec_eq_next hstep with ⟨hb', -⟩ | ⟨-, hend, rfl⟩ | ⟨-, -, hg⟩
  · exact absurd (hb'.symm.trans hb) (by decide)
  · have hopos := h.running_opos hb
    rw [hend] at hopos
    rw [finish_olen, hopos]
    cases s.op <;> exact Nat.mul_comm _ _
  · obtain ⟨bs, -, -, -, rfl⟩ := groupStep_eq_next.mp hg
    cases hc : convert s.op bs with
    | ok out =>
      rw [groupEffect_of_ok hc] at hdone
      exact absurd ((h.not_done hb).symm.trans hdone) (by decide)
    | error e =>
      rw [groupEffect_of_error hc] at herr
      exact absurd herr e.kind_ne_noError

end Sys2Proof.Machine
end

section
/-! PROOFS. A whole operation that SEQ runs from its start: the state after each group, the end in the state of the
whole-operation form (42_sequencer_host.md R104, R106), and that its result does not depend on what was before it
(10_state.md R27). -/

namespace Sys2Proof.Machine

open Host (Outcome)

/-! ## The whole-operation form -/

theorem wholeOperation_of_ok {i : Instr} {m out : List Byte} (h : convert i m = .ok out) (s : State) :
    wholeOperation i m s =
      { s with op := i, obuf := s.obuf.writeN 0 out, olen := BitVec.ofNat (Config.AW + 1) out.length,
               done := true, busy := false, err := .noError, erridx := 0 } := by
  simp only [wholeOperation, h]

/-- The groups before the failing one have been converted (R123). -/
theorem obufAfterFailure_eq {i : Instr} {m out : List Byte} {idx : Nat}
    (h : convert i (groupsBefore i m (idx / i.groupIn)) = .ok out) (obuf : Memory) :
    obufAfterFailure i m idx obuf = obuf.writeN 0 out := by
  rw [groupsBefore] at h
  simp only [obufAfterFailure, h]

/-- An error of whatever kind ends the operation in the same form; an illegal length leaves `OBUF` (R118). -/
theorem wholeOperation_of_error {i : Instr} {m : List Byte} {e : Z85Error} (h : convert i m = .error e)
    (s : State) :
    wholeOperation i m s =
      raise e.kind (BitVec.ofNat Config.AW e.index)
        { s with op := i, obuf := obufAfterFailure i m e.index s.obuf } := by
  cases e with
  | invalidCharacter idx => simp only [wholeOperation, h]; rfl
  | valueOverflow idx => simp only [wholeOperation, h]; rfl
  | invalidLength =>
    have hobuf : obufAfterFailure i m 0 s.obuf = s.obuf.writeN 0 [] :=
      obufAfterFailure_eq (by rw [Nat.zero_div, groupsBefore_zero, convert_nil]) s.obuf
    simp only [wholeOperation, h, Z85Error.index, hobuf]
    rfl

theorem operationSteps_of_ok {i : Instr} {m out : List Byte} (h : convert i m = .ok out) :
    operationSteps i m = m.length / i.groupIn + 1 := by
  simp only [operationSteps, h]

theorem operationSteps_of_illegal {i : Instr} {m : List Byte} (h : m.length % i.groupIn ≠ 0) :
    operationSteps i m = 0 := by
  simp only [operationSteps, convert_of_illegal h]

theorem operationSteps_of_error {i : Instr} {m : List Byte} {e : Z85Error} (h : convert i m = .error e)
    (he : e ≠ .invalidLength) : operationSteps i m = e.index / i.groupIn + 1 := by
  cases e with
  | invalidLength => exact absurd rfl he
  | invalidCharacter idx => simp only [operationSteps, h]; rfl
  | valueOverflow idx => simp only [operationSteps, h]; rfl

/-! ## The state between two groups -/

/-- An operation started in `s` after `k` groups, which have been converted to `out`. -/
def afterGroups (i : Instr) (s : State) (k : Nat) (out : List Byte) (acc : Acc) : State :=
  { s with op := i, busy := true, done := false, err := .noError, erridx := 0, olen := 0,
           ipos := BitVec.ofNat Config.AW (i.groupIn * k),
           opos := BitVec.ofNat (Config.AW + 1) (i.groupOut * k), acc := acc,
           obuf := s.obuf.writeN 0 out }

theorem length_of_message {s : State} {m : List Byte} (h : s.message = some m) : m.length = s.len.toNat :=
  Memory.readN_length h

theorem start_eq_afterGroups {i : Instr} {s : State} (h : s.len.toNat % i.groupIn = 0) :
    start i s = afterGroups i s 0 [] 0 := by
  rw [start_of_legal (lengthLegal_iff.mpr h)]
  rfl

section
variable {i : Instr} {s : State} {m : List Byte} {k : Nat} (out : List Byte) (acc : Acc)

theorem step_afterGroups (hs : s.script = []) :
    step (afterGroups i s k out acc) = exec i (afterGroups i s k out acc) :=
  (step_of_script_nil (s := afterGroups i s k out acc) hs).trans (seqTurn_running rfl)

/-- `IPOS` does not wrap before the end of the message (R31). -/
theorem afterGroups_ipos_toNat (hm : s.message = some m) (hk : k ≤ m.length / i.groupIn) :
    (afterGroups i s k out acc).ipos.toNat = i.groupIn * k := by
  have hle := (Nat.mul_le_mul_left i.groupIn hk).trans (Nat.mul_div_le m.length i.groupIn)
  rw [length_of_message hm] at hle
  exact Nat.mod_eq_of_lt (hle.trans_lt s.len.isLt)

/-- `OPOS` stays inside `OBUF` up to the end of the message (R31). -/
theorem groupOut_mul_lt (hm : s.message = some m) (hk : k ≤ m.length / i.groupIn) :
    i.groupOut * k < 131072 := by
  have hlt := IAddr.toNat_lt s.len
  rw [← length_of_message hm] at hlt
  cases i <;> simp only [Instr.groupIn, Instr.groupOut] at * <;> omega

theorem afterGroups_opos_toNat (hm : s.message = some m) (hk : k ≤ m.length / i.groupIn) :
    (afterGroups i s k out acc).opos.toNat = i.groupOut * k :=
  Nat.mod_eq_of_lt (groupOut_mul_lt hm hk)

theorem readN_groupAt (hm : s.message = some m) (hk : k < m.length / i.groupIn) :
    s.ibuf.readN (i.groupIn * k) i.groupIn = some (groupAt i m k) := by
  have hle := (Nat.mul_le_mul_left i.groupIn hk).trans (Nat.mul_div_le m.length i.groupIn)
  rw [Nat.mul_succ, length_of_message hm] at hle
  have hread := Memory.readN_sub hm (i.groupIn * k) i.groupIn hle
  rwa [Nat.zero_add] at hread

/-- The next step takes the next group of the message (R98). -/
theorem exec_afterGroups (hm : s.message = some m) (hk : k < m.length / i.groupIn) :
    exec i (afterGroups i s k out acc) =
      .next (groupEffect i (afterGroups i s k out acc) (groupAt i m k)) := by
  have hipos := afterGroups_ipos_toNat out acc hm hk.le
  have hopos := afterGroups_opos_toNat out acc hm hk.le
  have hle := (Nat.mul_le_mul_left i.groupIn hk).trans (Nat.mul_div_le m.length i.groupIn)
  have hout := groupOut_mul_lt hm hk
  have hlen : m.length = (afterGroups i s k out acc).len.toNat := length_of_message hm
  have hpos := groupIn_pos i
  rw [Nat.mul_succ] at hle hout
  rw [exec_group i rfl (by omega)]
  refine groupStep_eq_next.mpr ⟨groupAt i m k, ?_, ?_, fun _ => ?_, rfl⟩
  · have := IAddr.toNat_lt (afterGroups i s k out acc).len
    rw [Config.ibufSize_eq]
    omega
  · rw [hipos]
    exact readN_groupAt hm hk
  · rw [Config.obufSize_eq]
    omega

/-- A good group leads to the state after one more group. -/
theorem groupEffect_afterGroups {bs out' : List Byte} (hm : s.message = some m)
    (hk : k ≤ m.length / i.groupIn) (hout : out.length = i.groupOut * k) (hc : convert i bs = .ok out') :
    groupEffect i (afterGroups i s k out acc) bs =
      afterGroups i s (k + 1) (out ++ out') (groupAcc i bs acc) := by
  have hwrite : (s.obuf.writeN 0 out).writeN (i.groupOut * k) out' = s.obuf.writeN 0 (out ++ out') := by
    rw [Memory.writeN_append, Nat.zero_add, hout]
  rw [groupEffect_of_ok hc, afterGroups_opos_toNat out acc hm hk]
  simp only [afterGroups, hwrite, Nat.mul_succ, BitVec.ofNat_add]

/-- After the last group `IPOS` has reached `LEN`. -/
theorem afterGroups_ipos_end (hm : s.message = some m) (hl : m.length % i.groupIn = 0) :
    (afterGroups i s (m.length / i.groupIn) out acc).ipos = s.len := by
  apply BitVec.eq_of_toNat_eq
  rw [afterGroups_ipos_toNat out acc hm le_rfl, Nat.mul_div_cancel' (Nat.dvd_of_mod_eq_zero hl),
    length_of_message hm]

end

/-! ## The run of an operation -/

section
variable {i : Instr} {s : State} {m : List Byte}

/-- SEQ reaches the state after `k` groups if they convert (R99, R100, R104). -/
theorem run_afterGroups (hs : s.script = []) (hm : s.message = some m) (hl : m.length % i.groupIn = 0)
    {k : Nat} {out : List Byte} (hk : k ≤ m.length / i.groupIn)
    (h : convert i (groupsBefore i m k) = .ok out) :
    ∃ acc, run k (start i s) = .next (afterGroups i s k out acc) := by
  induction k generalizing out with
  | zero =>
    rw [groupsBefore_zero, convert_nil] at h
    cases h
    exact ⟨0, by rw [run_zero, start_eq_afterGroups (length_of_message hm ▸ hl)]⟩
  | succ k ih =>
    obtain ⟨out₀, out₁, h₀, h₁, rfl⟩ := convert_groupsBefore_succ hk h
    obtain ⟨acc, hrun⟩ := ih (Nat.le_of_succ_le hk) h₀
    have hout := length_of_convert_groupsBefore (Nat.le_of_succ_le hk) h₀
    refine ⟨groupAcc i (groupAt i m k) acc, ?_⟩
    have hnext := (step_afterGroups out₀ acc hs).trans (exec_afterGroups out₀ acc hm hk)
    rw [run_add hrun, run_succ_of_next hnext,
      groupEffect_afterGroups out₀ acc hm (Nat.le_of_succ_le hk) hout h₁, run_zero]

/-- The groups that convert before each of an operation's steps (R104). -/
theorem convert_before_step {j : Nat} (hj : j < operationSteps i m) :
    m.length % i.groupIn = 0 ∧ j ≤ m.length / i.groupIn ∧
      ∃ out, convert i (groupsBefore i m j) = .ok out := by
  have hl : m.length % i.groupIn = 0 := by
    by_contra hl
    rw [operationSteps_of_illegal hl] at hj
    exact Nat.not_lt_zero j hj
  refine ⟨hl, ?_⟩
  cases hc : convert i m with
  | ok out =>
    rw [operationSteps_of_ok hc] at hj
    rw [← groupsBefore_all hl] at hc
    exact ⟨Nat.le_of_lt_succ hj, convert_groupsBefore_of_le (Nat.le_of_lt_succ hj) le_rfl hc⟩
  | error e =>
    obtain ⟨hne, hbad, out, -, hout, -, -⟩ := convert_eq_error hl hc
    rw [operationSteps_of_error hc hne] at hj
    exact ⟨(Nat.le_of_lt_succ hj).trans hbad.le,
      convert_groupsBefore_of_le (Nat.le_of_lt_succ hj) hbad.le hout⟩

/-- Before the last of the steps of R104 the operation runs. -/
theorem operation_running (hs : s.script = []) (hm : s.message = some m) {j : Nat}
    (hj : j < operationSteps i m) :
    ∃ u, run j (start i s) = .next u ∧ u.busy = true ∧ u.done = false := by
  obtain ⟨hl, hle, out, hout⟩ := convert_before_step hj
  obtain ⟨acc, hrun⟩ := run_afterGroups hs hm hl hle hout
  exact ⟨_, hrun, rfl, rfl⟩

/-- After exactly the steps of R104 the operation has ended in the state of the whole-operation form, but for
the internal registers (R106). -/
theorem operation_ends (hs : s.script = []) (hm : s.message = some m) :
    ∃ t, run (operationSteps i m) (start i s) = .next t ∧ t.done = true ∧
      { t with ipos := s.ipos, opos := s.opos, acc := s.acc } = wholeOperation i m s := by
  by_cases hl : m.length % i.groupIn = 0
  case neg =>
    have hillegal : lengthLegal i s.len = false :=
      lengthLegal_eq_false_iff.mpr (length_of_message hm ▸ hl)
    rw [operationSteps_of_illegal hl, start_of_illegal hillegal]
    refine ⟨_, rfl, rfl, ?_⟩
    simp only [wholeOperation, convert_of_illegal hl]
    rfl
  cases hc : convert i m with
  | ok out =>
    have hgroups : convert i (groupsBefore i m (m.length / i.groupIn)) = .ok out := by
      rw [groupsBefore_all hl, hc]
    obtain ⟨acc, hrun⟩ := run_afterGroups hs hm hl le_rfl hgroups
    have hend : step (afterGroups i s (m.length / i.groupIn) out acc) = .next (finish _) :=
      (step_afterGroups out acc hs).trans (exec_finish i rfl (afterGroups_ipos_end out acc hm hl))
    rw [operationSteps_of_ok hc, run_add hrun, run_succ_of_next hend, run_zero]
    refine ⟨_, rfl, rfl, ?_⟩
    rw [wholeOperation_of_ok hc, length_of_convert hc]
    rfl
  | error e =>
    obtain ⟨hne, hbad, out, e', hout, he', hshift⟩ := convert_eq_error hl hc
    obtain ⟨acc, hrun⟩ := run_afterGroups hs hm hl hbad.le hout
    have hend := (step_afterGroups out acc hs).trans (exec_afterGroups out acc hm hbad)
    have hne' : e' ≠ .invalidLength := fun h => hne (by rw [hshift, h]; rfl)
    have hkind : e.kind = e'.kind := by rw [hshift, Z85Error.kind_shift]
    have hindex : e.index = i.groupIn * (e.index / i.groupIn) + e'.index := by
      rw [← Z85Error.index_shift hne', ← hshift]
    rw [operationSteps_of_error hc hne, run_add hrun, run_succ_of_next hend, run_zero]
    refine ⟨_, rfl, by rw [groupEffect_of_error he']; rfl, ?_⟩
    rw [groupEffect_of_error he', afterGroups_ipos_toNat out acc hm hbad.le, ← hindex,
      wholeOperation_of_error hc, obufAfterFailure_eq hout, hkind]
    rfl

end

/-! ## The result -/

/-- The result's registers, and that the result cells hold the converted message: none after an error. -/
theorem wholeOperation_result (i : Instr) (m : List Byte) (hm : m.length < 65536) :
    ∃ err erridx olen out, ∀ s,
      (wholeOperation i m s).op = i ∧ (wholeOperation i m s).err = err ∧
        (wholeOperation i m s).erridx = erridx ∧ (wholeOperation i m s).olen = olen ∧
        (wholeOperation i m s).obuf.readN 0 olen.toNat = some out := by
  cases hc : convert i m with
  | ok out =>
    have hlen := length_of_convert hc
    have hfit : (BitVec.ofNat (Config.AW + 1) out.length).toNat = out.length := by
      apply Nat.mod_eq_of_lt
      rw [Config.two_pow_AW_succ, hlen]
      cases i <;> simp only [Instr.groupIn, Instr.groupOut] <;> omega
    refine ⟨.noError, 0, BitVec.ofNat (Config.AW + 1) out.length, out, fun s => ?_⟩
    rw [wholeOperation_of_ok hc, hfit]
    exact ⟨rfl, rfl, rfl, rfl, Memory.readN_writeN_same s.obuf 0 out⟩
  | error e =>
    refine ⟨e.kind, BitVec.ofNat Config.AW e.index, 0, [], fun s => ?_⟩
    rw [wholeOperation_of_error hc]
    exact ⟨rfl, rfl, rfl, rfl, rfl⟩

/-- The first step of a run whose script is one accepted write of `CMD` starts the command (R97). -/
theorem run_commandWrite {s : State} {v : Word} (hs : s.script = [.host (.wr .cmd v)]) (hb : s.busy = false)
    (k : Nat) : run (k + 1) s = run k (start (decodeCommand v) { s with script := [] }) :=
  run_succ_of_next ((acceptedCommandRuns s v [] hs hb).trans (exec_idle _ (s := { s with script := [] }) hb))

/-- Settles O54: both runs end in the whole-operation form, whose result is that of the message. -/
theorem resultIndependentOfHistory : Obligations.ResultIndependentOfHistory := by
  intro s s' v m hb hb' _ hm hm' hs hs'
  have hm₀ : State.message { s with script := [] } = some m := hm
  have hm₀' : State.message { s' with script := [] } = some m := hm'
  constructor
  · obtain ⟨t, hrun, hdone, ht⟩ := operation_ends (i := decodeCommand v) rfl hm₀
    obtain ⟨t', hrun', hdone', ht'⟩ := operation_ends (i := decodeCommand v) rfl hm₀'
    obtain ⟨err, erridx, olen, out, hresult⟩ :=
      wholeOperation_result (decodeCommand v) m (length_of_message hm ▸ IAddr.toNat_lt s.len)
    obtain ⟨hop, herr, hidx, holen, hout⟩ := ht ▸ hresult { s with script := [] }
    obtain ⟨hop', herr', hidx', holen', hout'⟩ := ht' ▸ hresult { s' with script := [] }
    refine ⟨t, t', out, ?_, ?_, hdone, hdone', hop, hop', herr.trans herr'.symm, hidx.trans hidx'.symm,
      holen.trans holen'.symm, holen ▸ hout, holen' ▸ hout'⟩
    · rw [Nat.add_comm, run_commandWrite hs hb, hrun]
    · rw [Nat.add_comm, run_commandWrite hs' hb', hrun']
  · intro j hj hsteps
    obtain ⟨k, rfl⟩ := Nat.exists_eq_add_of_le' hj
    obtain ⟨u, hrun, -, hu⟩ := operation_running rfl hm₀ hsteps
    obtain ⟨u', hrun', -, hu'⟩ := operation_running rfl hm₀' hsteps
    exact ⟨u, u', by rw [run_commandWrite hs hb, hrun], by rw [run_commandWrite hs' hb', hrun'], hu, hu'⟩

end Sys2Proof.Machine
end

section
/-! PROOFS. The statements of 20_memory.md: what a read of a buffer answers, where a group step on unwritten input
stops, and which events can change which part of the state. -/

namespace Sys2Proof.Machine

/-! ## Reads of the buffers -/

theorem perform_inputRead_written {s : State} {a : IAddr} {b : Byte} (h : s.ibuf.read a.toNat = some b) :
    perform (.host (.ri a)) s = .next (s.reply (.ibuf b)) := by
  simp only [perform, transact, h]

theorem perform_inputRead_unwritten {s : State} {a : IAddr} (h : s.ibuf.read a.toNat = none) :
    perform (.host (.ri a)) s = .refused (.unwrittenIbuf a.toNat) := by
  simp only [perform, transact, h]

theorem perform_outputRead_written {s : State} {a : OAddr} {b : Byte} (h : s.obuf.read a.toNat = some b) :
    perform (.host (.rb a)) s = .next (s.reply (.obuf b)) := by
  simp only [perform, transact, h]

theorem perform_outputRead_unwritten {s : State} {a : OAddr} (h : s.obuf.read a.toNat = none) :
    perform (.host (.rb a)) s = .refused (.unwrittenObuf a.toNat) := by
  simp only [perform, transact, h]

/-- Settles O14: the event is the read, and the cell has a value or it has none. -/
theorem bufferReadsReturnCells : Obligations.BufferReadsReturnCells := by
  constructor
  · intro s a rest hs
    rw [step_of_script hs]
    cases hr : s.ibuf.read a.toNat with
    | some b => exact perform_inputRead_written (s := { s with script := rest }) hr
    | none => exact perform_inputRead_unwritten (s := { s with script := rest }) hr
  · intro s a rest hs
    rw [step_of_script hs]
    cases hr : s.obuf.read a.toNat with
    | some b => exact perform_outputRead_written (s := { s with script := rest }) hr
    | none => exact perform_outputRead_unwritten (s := { s with script := rest }) hr

/-! ## A group step on unwritten input -/

/-- A block with a cell without a value is not read. -/
theorem Memory.readN_eq_none {m : Memory} {a n k : Nat} (hk : k < n) (h : m.read (a + k) = none) :
    m.readN a n = none := by
  cases hr : m.readN a n with
  | none => rfl
  | some bs =>
    obtain ⟨hlen, hcells⟩ := (Memory.readN_eq_some_iff m a n bs).mp hr
    have hout := List.getElem?_eq_none_iff.mp ((hcells k hk).symm.trans h)
    omega

/-- A group step inside `IBUF` whose group is not all written is refused at the group's first cell without a
value (R45; log 6). -/
theorem groupStep_unwritten {i : Instr} {s : State} (hin : s.ipos.toNat + i.groupIn ≤ Config.ibufSize)
    (hread : s.ibuf.readN s.ipos.toNat i.groupIn = none) :
    ∃ k, k < i.groupIn ∧ (∀ j, j < k → s.ibuf.read (s.ipos.toNat + j) ≠ none) ∧
      s.ibuf.read (s.ipos.toNat + k) = none ∧
      groupStep i s = .refused (.unwrittenIbuf (s.ipos.toNat + k)) := by
  cases i with
  | encode =>
    cases hg : readRawGroup s with
    | ok g => exact absurd ((readRawGroup_eq_ok.mp hg).2.symm.trans hread) (Option.some_ne_none _)
    | error e =>
      obtain ⟨k, hk, hbefore, ⟨-, hnone, rfl⟩ | ⟨hout, -⟩⟩ := readRawGroup_eq_error hg
      · exact ⟨k, hk, hbefore, hnone, toOutcome_eq_refused.mpr (bind_eq_error.mpr (.inl hg))⟩
      · simp only [Instr.groupIn] at hin
        omega
  | decode =>
    cases hg : readTextGroup s with
    | ok c => exact absurd ((readTextGroup_eq_ok.mp hg).2.symm.trans hread) (Option.some_ne_none _)
    | error e =>
      obtain ⟨k, hk, hbefore, ⟨-, hnone, rfl⟩ | ⟨hout, -⟩⟩ := readTextGroup_eq_error hg
      · exact ⟨k, hk, hbefore, hnone, toOutcome_eq_refused.mpr (bind_eq_error.mpr (.inl hg))⟩
      · simp only [Instr.groupIn] at hin
        omega

/-- Settles O25: the invariant keeps the group inside `IBUF`, and a group has one first unwritten cell. -/
theorem unwrittenInputRefused : Obligations.UnwrittenInputRefused := by
  intro s k h hb hl hk hnone hbefore
  have hin : s.ipos.toNat + s.op.groupIn ≤ Config.ibufSize :=
    (h.ipos_add_le hb hl).trans (IAddr.toNat_lt s.len).le
  obtain ⟨k', -, hbefore', hnone', hstep⟩ := groupStep_unwritten hin (Memory.readN_eq_none hk hnone)
  rcases Nat.lt_trichotomy k' k with hlt | rfl | hgt
  · exact absurd hnone' (hbefore k' hlt)
  · rw [exec_group s.op hb hl, hstep]
  · exact absurd hnone (hbefore' k hgt)

/-! ## The access rights -/

/-- A host transaction never faults: at most its read of a cell without a value is refused (R39, R45). -/
theorem perform_host_ne_fault (x : Txn) (s : State) (f : Fault) : perform (.host x) s ≠ .fault f := by
  intro hf
  have hstops : ∀ t, perform (.host x) s ≠ .next t := fun t ht => by cases hf.symm.trans ht
  rcases perform_stops hstops with ⟨_, -, -, hr⟩ | ⟨_, -, -, hr⟩ | ⟨he, -, -⟩
  · cases hf.symm.trans hr
  · cases hf.symm.trans hr
  · cases he

/-- A write to a read-only or reserved register is ignored (R16 to R19). -/
theorem perform_readOnlyWrite {r : Reg} (v : Word) (s : State) (hcmd : r ≠ .cmd) (hlen : r ≠ .len) :
    perform (.host (.wr r v)) s = .next s := by
  cases r with
  | cmd => exact absurd rfl hcmd
  | len => exact absurd rfl hlen
  | status | olen | erridx | reserved5 | reserved6 | reserved7 => rfl

/-- Settles O51: each part of the state is changed by its own kinds of event alone. -/
theorem accessRights : Obligations.AccessRights := by
  refine ⟨fun s x f he => ?_, fun s r v he hcmd hlen => ?_, fun s t hstep hreset => ?_⟩
  · rw [step_eq_perform, he]
    exact perform_host_ne_fault x _ f
  · rw [step_eq_perform, he]
    exact perform_readOnlyWrite v _ hcmd hlen
  · cases step_eq_next hstep with
    | started v he hb ht =>
      obtain ⟨-, hlen, hibuf, hobuf, -, -⟩ := start_keeps (decodeCommand v) (popEvent s)
      subst ht
      exact ⟨absurd hobuf, absurd hibuf, absurd hlen, fun _ => ⟨hb, v, he⟩, fun _ => .inr ⟨hb, v, he⟩⟩
    | sequenced he hb ht =>
      obtain ⟨hop, hlen, hibuf, -, -⟩ := exec_running_keeps hb ht
      exact ⟨fun _ => ⟨he, hb⟩, absurd hibuf, absurd hlen, absurd hop, fun _ => .inl ⟨he, hb⟩⟩
    | lengthWritten v he hb ht =>
      subst ht
      exact ⟨absurd rfl, absurd rfl, fun _ => ⟨hb, v, he⟩, absurd rfl, absurd rfl⟩
    | inputWritten a v he hb ht =>
      subst ht
      exact ⟨absurd rfl, fun _ => ⟨hb, a, v, he⟩, absurd rfl, absurd rfl, absurd rfl⟩
    | polled _ ht =>
      obtain ⟨es, hes⟩ := pollDone_eq (popEvent s)
      rw [ht, hes]
      exact ⟨absurd rfl, absurd rfl, absurd rfl, absurd rfl, absurd rfl⟩
    | replied r _ ht | nothing _ ht =>
      subst ht
      exact ⟨absurd rfl, absurd rfl, absurd rfl, absurd rfl, absurd rfl⟩
    | wasReset he => exact absurd he hreset

end Sys2Proof.Machine
end

section
/-! PROOFS. The encodings of 30_encoding.md: the command word and the register numbers, the two ROMs as inverse
tables with the set of valid characters, and the largest legal text group. -/

namespace Sys2Proof

/-! ## The command word -/

/-- Settles O1: the word's number is the one decoded, and its parity selects the command. -/
theorem oddWordsDecodeEvenWordsEncode : Obligations.OddWordsDecodeEvenWordsEncode := by
  intro w hw
  rw [decodeTableWord, if_pos ⟨le_rfl, hw⟩, decodeCommand_eq, BitVec.toNat_ofNat, Nat.mod_eq_of_lt hw]

theorem decodeCommand_encodeCommand (ignored : BitVec 31) (i : Instr) :
    decodeCommand (encodeCommand ignored i) = i := by
  cases i with
  | encode => exact Laws.WordRoundTrip.encode ignored
  | decode => exact Laws.WordRoundTrip.decode ignored

/-- The `OP` bit of the command a word selects is the word's bit 0 (R60). -/
theorem opBit_decodeCommand (v : Word) : (decodeCommand v).opBit = v.extractLsb' 0 1 := by
  have hbit : v.extractLsb' 0 1 = BitVec.ofBool (v.getLsbD 0) := by
    ext k hk
    obtain rfl : k = 0 := by omega
    simp
  rw [hbit, decodeCommand]
  cases v.getLsbD 0 <;> rfl

/-- A word is its bits 31:1 and the word of the command that its bit 0 selects (R60). -/
theorem encodeCommand_decodeCommand (v : Word) :
    encodeCommand (v.extractLsb' 1 31) (decodeCommand v) = v := by
  rw [encodeCommand, opBit_decodeCommand]
  exact (BitVec.extractLsb'_append_extractLsb'_eq_extractLsb' (by decide)).trans BitVec.extractLsb'_eq_self

/-! ## The register numbers -/

theorem decodeReg_num (r : Reg) : decodeReg r.num = r := by
  cases r <;> rfl

theorem num_decodeReg : ∀ n : BitVec 3, (decodeReg n).num = n := by
  decide

/-- Settles O2: the word and the register number are each taken apart and put together again. -/
theorem decodeInvertsEncode : Obligations.DecodeInvertsEncode := by
  have hdecode (i : Instr) (ignored : BitVec 31) (rest : List Word) :
      decode (encodeCommand ignored i :: rest) = .ok (i, rest) := by
    rw [decode, decodeCommand_encodeCommand]
  exact ⟨hdecode, fun i => ⟨_, rfl, hdecode i 0#31 []⟩,
    fun v => ⟨_, (encodeCommand_decodeCommand v).symm⟩, decodeReg_num, num_decodeReg,
    rfl, rfl, rfl, rfl, rfl, rfl, rfl, rfl⟩

/-- Settles O3: each word's parity selects its command. -/
theorem tableWordsDecode : Obligations.TableWordsDecode := by
  simp only [Obligations.TableWordsDecode, decodeCommand_eq]
  decide

end Sys2Proof

namespace Sys2Proof.Machine

/-! ## The two ROMs -/

theorem decRomLookup_eq_some {c d : Byte} :
    decRomLookup c = some d ↔ ∃ j : Fin 96, c.toNat = j.val + 0x20 ∧ decRom j = d := by
  unfold decRomLookup
  constructor
  · intro h
    split at h
    · exact ⟨_, by simp only; omega, Option.some.inj h⟩
    · cases h
  · rintro ⟨j, hj, rfl⟩
    have hlt := j.isLt
    rw [dif_pos (by omega)]
    simp only [hj, Nat.add_sub_cancel]

/-- Every digit's character has a slot in `DEC_ROM`, which holds the digit (R54 (a)). -/
theorem exists_slot (d : Fin 85) :
    ∃ j : Fin 96, (encRom d).toNat = j.val + 0x20 ∧ (decRom j).toNat = d.val := by
  obtain ⟨j, hj, hd⟩ := decRomLookup_eq_some.mp (decRomLookup_encRom d)
  refine ⟨j, hj, ?_⟩
  rw [hd, BitVec.toNat_ofNat]
  omega

/-- A slot that does not hold 0 holds the digit of its own character (R54 (b)). -/
theorem encRom_of_decRom_ne_zero :
    ∀ j : Fin 96, decRom j ≠ 0 → (encRom (Fin.ofNat 85 (decRom j).toNat)).toNat = j.val + 0x20 := by
  decide +kernel

/-- The slots that hold 0: that of digit 0 and the 11 sentinels (R54 (d)). -/
theorem decRom_eq_zero_iff :
    ∀ j : Fin 96, decRom j = 0 ↔ j.val ∈ [16, 0, 2, 7, 12, 27, 60, 63, 64, 92, 94, 95] := by
  decide +kernel

/-- Every slot holds an address of `ENC_ROM` (R54 (e)). -/
theorem decRom_le : ∀ j : Fin 96, (decRom j).toNat ≤ 84 := by
  decide +kernel

/-- Settles O26: clauses (b) and (c) follow from (a) and from what the nonzero slots hold. -/
theorem romsAreInverse : Obligations.RomsAreInverse := by
  refine ⟨exists_slot, fun j ⟨d, hd⟩ => ?_, fun j hj => ?_, decRom_eq_zero_iff, decRom_le⟩
  · obtain ⟨j', hj', hdigit⟩ := exists_slot d
    obtain rfl : j = j' := Fin.ext (Nat.add_right_cancel (hd.symm.trans hj'))
    exact ⟨d, hdigit, hd⟩
  · exact ⟨by_contra fun h => hj _ (encRom_of_decRom_ne_zero j h), rfl, hj 0⟩

/-! ## The valid characters -/

/-- The ROMs lead back to a character exactly when it is the character of some digit (R56). -/
theorem validByRoms_eq_valid (c : Byte) : validByRoms c = valid c := by
  rw [Bool.eq_iff_iff, valid_iff]
  constructor
  · intro h
    unfold validByRoms at h
    split at h
    · split at h
      · exact ⟨_, (beq_iff_eq.mp h).symm⟩
      · cases h
    · cases h
  · rintro ⟨d, rfl⟩
    have hd : (BitVec.ofNat 8 d.val).toNat = d.val := by rw [BitVec.toNat_ofNat]; omega
    simp [validByRoms, decRomLookup_encRom, hd]

/-- Settles O27: a byte that the ROMs lead back to itself is an entry of `ENC_ROM`, and every entry is led back. -/
theorem validityFromRoms : Obligations.ValidityFromRoms := validByRoms_eq_valid

/-- Settles O28: the entries are the characters of the digits; for the ranges and the mask each byte's one lookup
in the ROMs (R56) stands for its search among the entries. -/
theorem validCharactersClassified : Obligations.ValidCharactersClassified := by
  intro c
  refine ⟨(valid_iff c).trans (exists_congr fun d => eq_comm), ?_, ?_⟩
  · rw [← validByRoms_eq_valid]
    revert c
    decide +kernel
  · rw [← validByRoms_eq_valid]
    revert c
    decide +kernel

/-! ## The largest legal group -/

/-- `(82, 23, 54, 12, 0)` are the digits of `2^32 - 1`, and digit tuples are ordered as their values (R63). -/
theorem two_pow_32_le_digitsValue_iff (d0 d1 d2 d3 d4 : Fin 85) :
    2 ^ 32 ≤ digitsValue d0 d1 d2 d3 d4 ↔ digitsAboveMax d0 d1 d2 d3 d4 := by
  unfold digitsValue digitsAboveMax
  omega

theorem decBlock_eq_valueOverflow_iff (d0 d1 d2 d3 d4 : Fin 85) :
    decBlock (textOfDigits d0 d1 d2 d3 d4) = .valueOverflow ↔ 2 ^ 32 ≤ digitsValue d0 d1 d2 d3 d4 := by
  rw [decBlock_textOfDigits]
  split
  · exact iff_of_true rfl ‹_›
  · exact iff_of_false BlockResult.noConfusion ‹_›

/-- Settles O32: the range test on the value is the order of the digit tuples. -/
theorem overflowBoundary : Obligations.OverflowBoundary := by
  intro d0 d1 d2 d3 d4
  have hvalue := two_pow_32_le_digitsValue_iff d0 d1 d2 d3 d4
  exact ⟨(decBlock_eq_valueOverflow_iff d0 d1 d2 d3 d4).trans hvalue, hvalue⟩

end Sys2Proof.Machine
end

section
/-! PROOFS. The pseudo-lines of the host's script (30_encoding.md R66): `LOAD` stores a block, `ENCODE n` and
`DECODE n` start their command, and `WAIT` on a running operation ends. -/

namespace Sys2Proof.Machine

/-! ## LOAD -/

/-- A write of `IBUF` accepted with `BUSY = 0` stores its byte (R96). -/
theorem perform_inputWrite {s : State} (a : IAddr) (v : Byte) (h : s.busy = false) :
    perform (.host (.wb a v)) s = .next { s with ibuf := s.ibuf.write a.toNat v } := by
  simp only [perform, transact, h, Bool.false_eq_true, if_false]

theorem step_inputWrite {s : State} {a : IAddr} {v : Byte} {rest : List Event}
    (hs : s.script = .host (.wb a v) :: rest) (hb : s.busy = false) :
    step s = .next { s with script := rest, ibuf := s.ibuf.write a.toNat v } :=
  (step_of_script hs).trans (perform_inputWrite (s := { s with script := rest }) a v hb)

/-- The writes of a `LOAD` that fits `IBUF` store its bytes from its address up (R66). -/
theorem run_loadEvents {a : Nat} {xs : List Nat} {rest : List Event} {s : State}
    (hfit : a + xs.length ≤ Config.ibufSize) (hb : s.busy = false)
    (hs : s.script = loadEvents a xs ++ rest) :
    run xs.length s =
      .next { s with script := rest, ibuf := s.ibuf.writeN a (xs.map (BitVec.ofNat 8)) } := by
  induction xs generalizing a s with
  | nil =>
    obtain rfl : s.script = rest := hs
    rfl
  | cons x xs ih =>
    rw [List.length_cons] at hfit
    have haddr : (BitVec.ofNat Config.AW a).toNat = a :=
      Nat.mod_eq_of_lt (show a < Config.ibufSize by omega)
    have hstep := step_inputWrite hs hb
    rw [haddr] at hstep
    rw [List.length_cons, run_succ_of_next hstep]
    exact ih (by omega) hb rfl

/-- Settles O15: the cells of the block hold the bytes just stored, every other cell reads as before. -/
theorem loadLineStoresItsBytes : Obligations.LoadLineStoresItsBytes := by
  intro s a xs rest hwf hb hs
  simp only [Line.wf, Bool.and_eq_true, decide_eq_true_eq] at hwf
  obtain ⟨hfit, -⟩ := hwf
  refine ⟨_, run_loadEvents hfit hb hs, rfl, ?_, fun a' ha' => ?_⟩
  · have hread := Memory.readN_writeN_same s.ibuf a (xs.map (BitVec.ofNat 8))
    rwa [List.length_map] at hread
  · rw [Memory.read_writeN, List.length_map, if_neg (by omega)]

/-! ## ENCODE n, DECODE n -/

theorem run_one (s : State) : run 1 s = step s := by
  rw [run_succ]
  cases step s <;> rfl

theorem step_lengthWrite {s : State} {v : Word} {rest : List Event}
    (hs : s.script = .host (.wr .len v) :: rest) (hb : s.busy = false) :
    step s = .next { s with len := v.setWidth Config.AW, script := rest } :=
  (step_of_script hs).trans (perform_lengthWrite (s := { s with script := rest }) v hb)

/-- The two writes of a command's pseudo-line come to the command with its length written (R66). -/
theorem run_commandEvents {i : Instr} {n : Nat} {rest : List Event} {s : State} (hb : s.busy = false)
    (hs : s.script = commandEvents i n ++ rest) :
    run 2 s = exec i { s with len := BitVec.ofNat Config.AW n, script := rest } := by
  have hlen : (BitVec.ofNat 32 n).setWidth Config.AW = BitVec.ofNat Config.AW n :=
    BitVec.setWidth_ofNat_of_le (by decide) n
  rw [run_succ_of_next (step_lengthWrite hs hb), run_one, hlen]
  have hcommand := acceptedCommandRuns
    { s with len := BitVec.ofNat Config.AW n, script := .host (.wr .cmd (encodeCommand 0#31 i)) :: rest }
    _ rest rfl hb
  rwa [decodeCommand_encodeCommand] at hcommand

/-- Settles O16: both lines are the two writes of their command. -/
theorem commandLinesStart : Obligations.CommandLinesStart :=
  fun _ _ _ _ hb => ⟨run_commandEvents hb, run_commandEvents hb⟩

/-! ## WAIT -/

/-- A running operation whose message has been written goes on: it ends, or it advances by one group (R98). -/
theorem exec_running_progress {s : State} {m : List Byte} (h : Inv s) (hb : s.busy = true)
    (hm : s.message = some m) :
    ∃ t, exec s.op s = .next t ∧
      ((t.busy = false ∧ t.done = true) ∨
        (t.busy = true ∧ s.ipos.toNat < s.len.toNat ∧ t.ipos.toNat = s.ipos.toNat + s.op.groupIn)) := by
  rcases (h.running_ipos hb).2.lt_or_eq with hl | he
  · have hfit := h.ipos_add_le hb hl
    have hin : s.ipos.toNat + s.op.groupIn < 65536 := hfit.trans_lt (IAddr.toNat_lt _)
    have hread := Memory.readN_sub hm s.ipos.toNat s.op.groupIn hfit
    rw [Nat.zero_add] at hread
    have hgroup := groupStep_eq_next.mpr ⟨_, hin.le, hread, fun _ => (h.opos_add_lt hb hl).le, rfl⟩
    refine ⟨_, (exec_group s.op hb hl).trans hgroup, ?_⟩
    cases hc : convert s.op ((m.drop s.ipos.toNat).take s.op.groupIn) with
    | ok out => rw [groupEffect_of_ok hc]; exact .inr ⟨hb, hl, ipos_add_toNat hin⟩
    | error e => rw [groupEffect_of_error hc]; exact .inl ⟨rfl, rfl⟩
  · exact ⟨_, exec_finish s.op hb (BitVec.eq_of_toNat_eq he), .inl ⟨rfl, rfl⟩⟩

theorem step_seq_running {s : State} {rest : List Event} (hs : s.script = .seq :: rest)
    (hb : s.busy = true) : step s = exec s.op { s with script := rest } :=
  (step_of_script hs).trans (seqTurn_running (s := { s with script := rest }) hb)

/-- A state with `DONE = 0` after one poll of `WAIT`, with SEQ's turn taken off the script (log 8). -/
def afterPoll (s : State) (rest : List Event) : State :=
  { s with script := .wait :: rest, replies := .reg (statusWord s) :: s.replies }

/-- `WAIT` polls a running operation once and gives SEQ one turn (log 8). -/
theorem run_wait_running {s : State} {rest : List Event} (hb : s.busy = true) (hd : s.done = false)
    (hs : s.script = .wait :: rest) : run 2 s = exec s.op (afterPoll s rest) := by
  have hpoll : step s = .next { afterPoll s rest with script := .seq :: .wait :: rest } :=
    (step_of_script hs).trans (congrArg _ (pollDone_of_not_done (s := { s with script := rest }) hd))
  rw [run_succ_of_next hpoll, run_one]
  exact step_seq_running rfl hb

/-- After a poll and a turn of SEQ the operation has ended or is nearer to its end, and `WAIT` is next again. -/
theorem exists_run_wait_running {s : State} {m : List Byte} {rest : List Event} (h : Inv s)
    (hb : s.busy = true) (hm : s.message = some m) (hs : s.script = .wait :: rest) :
    ∃ u, run 2 s = .next u ∧ u.script = .wait :: rest ∧
      ((u.busy = false ∧ u.done = true) ∨
        (Inv u ∧ u.busy = true ∧ u.message = some m ∧
          u.len.toNat - u.ipos.toNat < s.len.toNat - s.ipos.toNat)) := by
  have hinv : Inv (afterPoll s rest) := h.host _ _
  obtain ⟨u, hexec, hu⟩ := exec_running_progress (s := afterPoll s rest) hinv hb hm
  obtain ⟨-, hlen, hibuf, hscript, -⟩ := exec_running_keeps (s := afterPoll s rest) hb hexec
  refine ⟨u, (run_wait_running hb (h.not_done hb) hs).trans hexec, hscript, hu.imp_right ?_⟩
  rintro ⟨hub, hl, hipos⟩
  refine ⟨hinv.exec hb hexec, hub, by rw [State.message, hlen, hibuf]; exact hm, ?_⟩
  have hpos := groupIn_pos (afterPoll s rest).op
  have hleft : u.len.toNat - u.ipos.toNat < (afterPoll s rest).len.toNat - (afterPoll s rest).ipos.toNat := by
    rw [hlen, hipos]
    omega
  exact hleft

/-- Bit 1 of `STATUS` is `DONE` (R16). -/
theorem statusWord_bit_one {s : State} (h : s.done = true) : (statusWord s).toNat / 2 % 2 = 1 := by
  have hbusy := Bool.toNat_le s.busy
  rw [statusWord_toNat, h, Bool.toNat_true]
  omega

/-- `WAIT` on an ended operation ends with the value it reads (R66). -/
theorem run_wait_ended {s : State} {rest : List Event} (hd : s.done = true) (hb : s.busy = false)
    (hs : s.script = .wait :: rest) :
    ∃ t v, run 1 s = .next t ∧ t.script = rest ∧ t.done = true ∧ t.busy = false ∧
      t.replies.head? = some (.reg v) ∧ v.toNat / 2 % 2 = 1 := by
  have hpoll : step s = .next ({ s with script := rest }.reply (.reg (statusWord s))) :=
    (step_of_script hs).trans (congrArg _ (pollDone_of_done (s := { s with script := rest }) hd))
  exact ⟨_, statusWord s, (run_one s).trans hpoll, rfl, hd, hb, rfl, statusWord_bit_one hd⟩

/-- Settles O17: between two polls the operation ends or comes one group nearer to its end (R107). -/
theorem waitEndsWithDone : Obligations.WaitEndsWithDone := by
  intro s m rest h hb hm hs
  induction hleft : s.len.toNat - s.ipos.toNat using Nat.strong_induction_on generalizing s with
  | _ left ih =>
    subst hleft
    obtain ⟨u, hrun, hus, ⟨hub, hud⟩ | ⟨hu, hub, hum, hless⟩⟩ := exists_run_wait_running h hb hm hs
    · obtain ⟨t, v, hend, ht⟩ := run_wait_ended hud hub hus
      exact ⟨2 + 1, t, v, (run_add hrun).trans hend, ht⟩
    · obtain ⟨k, t, v, hend, ht⟩ := ih _ hless u hu hub hum hus rfl
      exact ⟨2 + k, t, v, (run_add hrun).trans hend, ht⟩

end Sys2Proof.Machine
end

section
/-! PROOFS. The encoder of 40_encoder.md: the byte order of a group value, `ENC_BLOCK`'s digits as the base-85
representation of the value, and the laws of `z85_encode` on whole messages. -/

namespace Sys2Proof.Machine

/-! ## The group value -/

/-- Appending a byte below a word shifts the word up by eight bits. -/
theorem toNat_append_byte {n : Nat} (x : BitVec n) (b : Byte) : (x ++ b).toNat = x.toNat * 256 + b.toNat := by
  rw [BitVec.toNat_append, ← Nat.shiftLeft_add_eq_or_of_lt b.isLt, Nat.shiftLeft_eq]

theorem groupValue_eq_append (g : RawGroup) : groupValue g = g.b0 ++ g.b1 ++ g.b2 ++ g.b3 := by
  apply BitVec.eq_of_toNat_eq
  rw [groupValue_toNat, toNat_append_byte, toNat_append_byte, toNat_append_byte]
  omega

/-- A byte slice of a value is the quotient by the slice's weight (R85). -/
theorem extractLsb'_byte (v : BitVec 32) (start : Nat) :
    v.extractLsb' start 8 = BitVec.ofNat 8 (v.toNat / 2 ^ start % 256) := by
  apply BitVec.eq_of_toNat_eq
  rw [BitVec.extractLsb'_toNat, BitVec.toNat_ofNat, Nat.shiftRight_eq_div_pow, Nat.mod_mod]

theorem valueBytes_eq_slices (v : BitVec 32) :
    valueBytes v =
      ⟨v.extractLsb' 24 8, v.extractLsb' 16 8, v.extractLsb' 8 8, v.extractLsb' 0 8⟩ := by
  simp only [extractLsb'_byte]
  rfl

/-- Settles O29: the bytes of a value are concatenated, and sliced, most significant first. -/
theorem groupValueIsBigEndian : Obligations.GroupValueIsBigEndian := by
  refine ⟨fun g => ⟨groupValue_eq_append g, ?_⟩, fun v => ⟨valueBytes_eq_slices v, ?_⟩⟩
  · rw [groupValue_toNat]
    omega
  · have byte (n : Nat) : (BitVec.ofNat 8 (n % 256)).toNat = n % 256 := by
      rw [BitVec.toNat_ofNat, Nat.mod_mod]
    exact ⟨byte _, byte _, byte _, byte _⟩

/-! ## The digits of a group -/

/-- The most significant digit needs no reduction: a 32-bit value fits in five places. -/
theorem digitAt_top_val (v : BitVec 32) : (digitAt v 52200625).val = v.toNat / 52200625 := by
  have := v.isLt
  rw [digitAt_val]
  omega

theorem digitAt_top_le (v : BitVec 32) : (digitAt v 52200625).val ≤ 82 := by
  have := v.isLt
  rw [digitAt_top_val]
  omega

/-- Settles O30: five base-85 places hold a 32-bit value in one way only (R73 items 2 to 4). -/
theorem digitsRepresentValue : Obligations.DigitsRepresentValue := by
  intro g
  have hv : (groupValue g).toNat = bytesValue g.b0 g.b1 g.b2 g.b3 := groupValue_toNat g
  refine ⟨_, _, _, _, _, encBlock_textOfDigits g, ?_, digitAt_top_le _, ?_, ?_⟩
  · rw [digitsValue_digitAt, hv]
  · intro e0 e1 e2 e3 e4 he
    obtain ⟨h0, h1, h2, h3, h4⟩ := digitAt_digitsValue (groupValue g) (he.trans hv.symm)
    exact ⟨h0.symm, h1.symm, h2.symm, h3.symm, h4.symm⟩
  · rw [← hv, digitAt_top_val]
    simp only [digitAt_val, Nat.div_div_eq_div_mul, Nat.div_one, Nat.reduceMul, and_self]

/-- Every character of an encoded group is an entry of `ENC_ROM`. -/
theorem valid_of_mem_encBlock {g : RawGroup} {c : Byte} (h : c ∈ (encBlock g).bytes) : valid c = true := by
  obtain ⟨h0, h1, h2, h3, h4⟩ :=
    (firstInvalid_eq_none_iff (encBlock g)).mp (firstInvalid_textOfDigits _ _ _ _ _)
  simp only [TextGroup.bytes, List.mem_cons, List.not_mem_nil, or_false] at h
  rcases h with rfl | rfl | rfl | rfl | rfl <;> assumption

/-- `DEC_BLOCK` undoes `ENC_BLOCK` (R87 item 7). -/
theorem decBlock_encBlock (g : RawGroup) : decBlock (encBlock g) = .ok g := by
  rw [encBlock_textOfDigits, decBlock_textOfDigits, digitsValue_digitAt,
    if_neg (Nat.not_le.mpr (groupValue g).isLt), BitVec.ofNat_toNat, BitVec.setWidth_eq, valueBytes_groupValue]

/-! ## The message function -/

/-- The encoder gives valid characters only (R76 item 3). -/
theorem valid_of_mem_encodeGroups {c : Byte} :
    ∀ m : List Byte, m.length % 4 = 0 → c ∈ encodeGroups m → valid c = true := by
  apply rawGroups_induction
  · exact fun h => absurd h List.not_mem_nil
  · intro b0 b1 b2 b3 rest ih h
    rw [encodeGroups_cons, List.mem_append] at h
    exact h.elim valid_of_mem_encBlock ih

/-- Settles O34: `z85_encode` runs its loop when the length allows it, and each group gives five valid characters. -/
theorem encodeLengthAndAlphabet : Obligations.EncodeLengthAndAlphabet := by
  intro m
  refine ⟨fun hm => ⟨encodeGroups m, z85Encode_eq_ok.mpr ⟨hm, rfl⟩, ?_, ?_, ?_⟩, ?_⟩
  · exact encodeGroups_length m hm
  · rw [encodeGroups_length m hm]
    omega
  · exact fun c => valid_of_mem_encodeGroups m hm
  · exact convert_of_illegal (i := .encode)

/-- The decoder's loop over a good group followed by a good text (R88). -/
theorem decodeGroups_bytes_append {t : TextGroup} {g : RawGroup} {idx : Nat} {rest out : List Byte}
    (ht : decBlock t = .ok g) (hrest : decodeGroups (idx + 5) rest = .ok out) :
    decodeGroups idx (t.bytes ++ rest) = .ok (g.bytes ++ out) := by
  obtain ⟨c0, c1, c2, c3, c4⟩ := t
  simp only [TextGroup.bytes, List.cons_append, List.nil_append, decodeGroups_cons, ht, hrest]

/-- The decoder's loop undoes the encoder's, whatever index it counts from. -/
theorem decodeGroups_encodeGroups :
    ∀ m : List Byte, m.length % 4 = 0 → ∀ idx, decodeGroups idx (encodeGroups m) = .ok m := by
  apply rawGroups_induction
  · exact decodeGroups_nil
  · intro b0 b1 b2 b3 rest ih idx
    exact decodeGroups_bytes_append (decBlock_encBlock ⟨b0, b1, b2, b3⟩) (ih (idx + 5))

/-- What `z85_encode` gives is decoded to the message (R90). -/
theorem z85Decode_of_z85Encode {m out : List Byte} (h : z85Encode m = .ok out) : z85Decode out = .ok m := by
  obtain ⟨hm, rfl⟩ := z85Encode_eq_ok.mp h
  refine z85Decode_eq_ok.mpr ⟨?_, decodeGroups_encodeGroups m hm 0⟩
  rw [encodeGroups_length m hm, Nat.mul_mod_right]

/-- Settles O35: the decoder is a left inverse of the encoder. -/
theorem encodeIsInjective : Obligations.EncodeIsInjective := by
  intro m m' out h h'
  exact Except.ok.inj ((z85Decode_of_z85Encode h).symm.trans (z85Decode_of_z85Encode h'))

/-- Settles O36: whole groups are encoded one after the other, so a cut between groups does not matter. -/
theorem encodeConcatenates : Obligations.EncodeConcatenates :=
  fun _ _ _ _ h1 h2 => convert_append_ok (i := .encode) h1 h2

end Sys2Proof.Machine
end

section
/-! PROOFS. The decoder of 41_decoder.md: the exact accumulator, `DEC_BLOCK` as the inverse of `ENC_BLOCK`, the laws
of `z85_decode` on whole texts, and the round trips, of the message functions and on the machine. -/

namespace Sys2Proof.Machine

/-! ## The round trips of the message functions -/

/-- `ENC_BLOCK` undoes `DEC_BLOCK` on an accepted text group (R87 item 7). -/
theorem encBlock_of_decBlock {t : TextGroup} {g : RawGroup} (h : decBlock t = .ok g) : encBlock g = t := by
  cases hf : firstInvalid t with
  | some k =>
    rw [(decBlock_eq_invalidCharacter_iff t k).mpr hf] at h
    cases h
  | none =>
    obtain ⟨d0, d1, d2, d3, d4, rfl⟩ := exists_digits hf
    rw [decBlock_textOfDigits] at h
    split at h
    · cases h
    · cases h
      apply encBlock_valueBytes
      rw [BitVec.toNat_ofNat, Nat.mod_eq_of_lt (Nat.lt_of_not_le ‹_›)]

/-- The encoder's loop undoes the decoder's, whatever index that counts from. -/
theorem encodeGroups_of_decodeGroups :
    ∀ t : List Byte, t.length % 5 = 0 → ∀ idx out, decodeGroups idx t = .ok out → encodeGroups out = t := by
  apply textGroups_induction
  · intro idx out h
    cases h
    rfl
  · intro c0 c1 c2 c3 c4 rest ih idx out h
    rw [decodeGroups_cons] at h
    cases hd : decBlock ⟨c0, c1, c2, c3, c4⟩ with
    | invalidCharacter k => simp [hd] at h
    | valueOverflow => simp [hd] at h
    | ok g =>
      cases hr : decodeGroups (idx + 5) rest with
      | error e => simp [hd, hr] at h
      | ok out' =>
        simp only [hd, hr, Except.ok.injEq] at h
        subst h
        have hgroups : encodeGroups (g.bytes ++ out') = (encBlock g).bytes ++ encodeGroups out' := rfl
        rw [hgroups, encBlock_of_decBlock hd, ih _ _ hr]
        rfl

/-- Settles O39: group by group the decoder accepts only the encoder's spelling. -/
theorem decodedTextsAreCanonical : Obligations.DecodedTextsAreCanonical := by
  intro t out h
  obtain ⟨ht, hgroups⟩ := z85Decode_eq_ok.mp h
  have hlen := length_of_convert (i := .decode) h
  refine z85Encode_eq_ok.mpr ⟨?_, (encodeGroups_of_decodeGroups t ht 0 out hgroups).symm⟩
  rw [hlen]
  exact Nat.mul_mod_right _ _

/-- Settles O42: the decoder undoes the encoder, which accepts every length divisible by 4. -/
theorem encodeThenDecodeRoundTrips : Obligations.EncodeThenDecodeRoundTrips := fun b hb =>
  have h : z85Encode b = .ok (encodeGroups b) := z85Encode_eq_ok.mpr ⟨hb, rfl⟩
  ⟨_, h, z85Decode_of_z85Encode h⟩

/-- Settles O33: each datapath undoes the other, so `ENC_BLOCK` has a left inverse. -/
theorem groupDatapathsAreInverse : Obligations.GroupDatapathsAreInverse := by
  refine ⟨decBlock_encBlock, fun _ _ => encBlock_of_decBlock, fun g g' h => ?_⟩
  have hdec := congrArg decBlock h
  rw [decBlock_encBlock, decBlock_encBlock] at hdec
  exact BlockResult.ok.inj hdec

/-! ## The accumulator -/

/-- From a value below `85^k` the loop is exact for the `5 - k` characters still to come (R83). -/
theorem foldl_accStep_toNat {ds : List (Fin 85)} {acc : Acc} {k : Nat} (hacc : acc.toNat < 85 ^ k)
    (hk : k + ds.length ≤ 5) :
    ((ds.map encRom).foldl accStep acc).toNat = ds.foldl (fun n d => n * 85 + d.val) acc.toNat ∧
      ds.foldl (fun n d => n * 85 + d.val) acc.toNat < 85 ^ (k + ds.length) := by
  induction ds generalizing acc k with
  | nil => exact ⟨rfl, hacc⟩
  | cons d ds ih =>
    rw [List.length_cons] at hk ⊢
    have hpow : 85 ^ (k + 1) ≤ 85 ^ 5 := Nat.pow_le_pow_right (by decide) (by omega)
    have hsucc : 85 ^ (k + 1) = 85 ^ k * 85 := Nat.pow_succ ..
    have hstep : (accStep acc (encRom d)).toNat = acc.toNat * 85 + d.val := accStep_toNat acc d (by omega)
    obtain ⟨hsum, hbound⟩ := ih (acc := accStep acc (encRom d)) (k := k + 1) (by omega) (by omega)
    rw [hstep] at hsum hbound
    exact ⟨hsum, by rwa [Nat.add_right_comm, Nat.add_assoc] at hbound⟩

/-- Settles O31: 85^5 is below 2^33, so no turn of the loop wraps. -/
theorem accumulatorIsExact : Obligations.AccumulatorIsExact := by
  constructor
  · intro ds hds
    have h := foldl_accStep_toNat (ds := ds) (acc := 0) (k := 0) (by decide) (by omega)
    rwa [Nat.zero_add] at h
  · intro d0 d1 d2 d3 d4
    exact accumulate_textOfDigits d0 d1 d2 d3 d4

/-! ## Lengths and concatenations -/

/-- Settles O37: the length law and the rejection by length of both message functions, for the decoder. -/
theorem decodeLengthLaw : Obligations.DecodeLengthLaw := fun _ =>
  ⟨fun _ h => ⟨length_mod_of_convert_ok (i := .decode) h, length_of_convert (i := .decode) h⟩,
    convert_of_illegal (i := .decode)⟩

/-- Settles O40: whole groups are decoded one after the other, the second text's indices counted from its start in
the concatenation. -/
theorem decodeConcatenates : Obligations.DecodeConcatenates := by
  intro t1 t2 h1 h2
  have happend : z85Decode (t1 ++ t2) = _ := convert_append (i := .decode) h1 h2
  simp only [convert] at happend
  rw [happend]
  cases z85Decode t1 with
  | error e => rfl
  | ok o1 =>
    cases z85Decode t2 with
    | ok o2 => rfl
    | error e => cases e <;> rfl

/-! ## The first bad group -/

/-- A group whose first invalid character is at `k` is rejected there (R82). -/
theorem convert_group_invalid {bs : List Byte} {k : Nat} (hl : bs.length = 5) (hk : k < 5)
    (hbad : bs[k]?.map valid = some false) (hgood : ∀ j < k, bs[j]?.map valid = some true) :
    convert .decode bs = .error (.invalidCharacter k) := by
  obtain ⟨c, rfl⟩ := exists_textGroup hl
  have hfirst : firstInvalid c = some ⟨k, hk⟩ := (firstInvalid_eq_some_iff c ⟨k, hk⟩).mpr ⟨hbad, hgood⟩
  rw [convert_textGroup, (decBlock_eq_invalidCharacter_iff c _).mpr hfirst]
  rfl

/-- An overflowing group is rejected at its start (R84). -/
theorem convert_group_overflow {t : List Byte} {g : Nat} (h : GroupOverflows t g) :
    convert .decode (groupAt .decode t g) = .error (.valueOverflow 0) := by
  obtain ⟨d0, d1, d2, d3, d4, hbytes, hvalue⟩ := h
  have hgroup : groupAt .decode t g = (textOfDigits d0 d1 d2 d3 d4).bytes := hbytes
  rw [hgroup, convert_textGroup, (decBlock_eq_valueOverflow_iff ..).mpr hvalue]
  rfl

theorem firstInvalid_eq_none_of_bytes {c : TextGroup} (h : ∀ j < 5, c.bytes[j]?.map valid = some true) :
    firstInvalid c = none := by
  cases hf : firstInvalid c with
  | none => rfl
  | some k =>
    have hbad := ((firstInvalid_eq_some_iff c k).mp hf).1
    rw [h k k.isLt] at hbad
    cases hbad

/-- A group of valid characters that does not overflow decodes (R86). -/
theorem exists_convert_group_ok {t : List Byte} {g : Nat} (hl : (groupAt .decode t g).length = 5)
    (hvalid : ∀ j < 5, (groupAt .decode t g)[j]?.map valid = some true) (hfit : ¬ GroupOverflows t g) :
    ∃ out, convert .decode (groupAt .decode t g) = .ok out := by
  obtain ⟨c, hc⟩ := exists_textGroup hl
  rw [hc] at hvalid ⊢
  obtain ⟨d0, d1, d2, d3, d4, rfl⟩ := exists_digits (firstInvalid_eq_none_of_bytes hvalid)
  have hvalue : ¬ 2 ^ 32 ≤ digitsValue d0 d1 d2 d3 d4 := fun h => hfit ⟨d0, d1, d2, d3, d4, hc, h⟩
  rw [convert_textGroup, decBlock_textOfDigits, if_neg hvalue]
  exact ⟨_, rfl⟩

/-- The character at an offset of a group, by its index in the text. -/
theorem getElem?_groupAt {i : Instr} {m : List Byte} {k j : Nat} (hj : j < i.groupIn) :
    (groupAt i m k)[j]? = m[i.groupIn * k + j]? := by
  rw [groupAt, List.getElem?_take_of_lt hj, List.getElem?_drop]

/-- A bad group after converted ones decides, whatever follows it (R121). -/
theorem convert_of_badGroup {i : Instr} {m out : List Byte} {k : Nat} {e : Z85Error}
    (hl : m.length % i.groupIn = 0) (hk : k < m.length / i.groupIn)
    (hbefore : convert i (groupsBefore i m k) = .ok out) (hbad : convert i (groupAt i m k) = .error e) :
    convert i m = .error (e.shift (i.groupIn * k)) := by
  have hgroup : (groupAt i m k).length % i.groupIn = 0 := by rw [length_groupAt hk, Nat.mod_self]
  have hprefix : convert i (groupsBefore i m (k + 1)) = .error (e.shift (i.groupIn * k)) := by
    rw [groupsBefore_succ, convert_append_error hbefore hgroup hbad, length_groupsBefore hk.le]
  have hrest : (m.drop (i.groupIn * (k + 1))).length % i.groupIn = 0 := by
    rw [List.length_drop]
    exact (Nat.sub_mul_mod ((Nat.mul_le_mul_left _ hk).trans (Nat.mul_div_le _ _))).trans hl
  have h := convert_append_of_error (length_groupsBefore_mod hk) hrest hprefix
  rwa [groupsBefore, List.take_append_drop] at h

/-- Whole groups of valid characters of which none overflows decode. -/
theorem exists_convert_groupsBefore_ok {t : List Byte} {k : Nat} (hk : k ≤ t.length / 5)
    (hvalid : ∀ j < 5 * k, t[j]?.map valid = some true) (hfit : ∀ g < k, ¬ GroupOverflows t g) :
    ∃ out, convert .decode (groupsBefore .decode t k) = .ok out := by
  induction k with
  | zero => exact ⟨[], by rw [groupsBefore_zero, convert_nil]⟩
  | succ k ih =>
    obtain ⟨out, hout⟩ := ih (Nat.le_of_succ_le hk) (fun j hj => hvalid j (by omega))
      (fun g hg => hfit g (Nat.lt_succ_of_lt hg))
    have hgroup : ∀ j < 5, (groupAt .decode t k)[j]?.map valid = some true := fun j hj => by
      rw [getElem?_groupAt hj]
      exact hvalid _ (by simp only [Instr.groupIn]; omega)
    obtain ⟨out', hout'⟩ := exists_convert_group_ok (length_groupAt hk) hgroup (hfit k (Nat.lt_succ_self k))
    exact ⟨out ++ out', by rw [groupsBefore_succ, convert_append_ok hout hout']⟩

section
variable {t : List Byte} (ht : t.length % 5 = 0)
include ht

/-- The first invalid character is reported when no group wholly before it overflows (R91 item 3). -/
theorem z85Decode_of_invalid {i : Nat} (hbad : t[i]?.map valid = some false)
    (hgood : ∀ j < i, t[j]?.map valid = some true) (hfit : ∀ g, 5 * g + 5 ≤ i → ¬ GroupOverflows t g) :
    z85Decode t = .error (.invalidCharacter i) := by
  have hi : i < t.length := by
    by_contra hi
    rw [List.getElem?_eq_none (Nat.le_of_not_lt hi)] at hbad
    cases hbad
  have hk : i / 5 < t.length / 5 := by omega
  have hsplit : 5 * (i / 5) + i % 5 = i := Nat.div_add_mod i 5
  have hmod : i % 5 < 5 := Nat.mod_lt i (by decide)
  obtain ⟨out, hout⟩ := exists_convert_groupsBefore_ok hk.le (fun j hj => hgood j (by omega))
    (fun g hg => hfit g (by omega))
  have hgroup : convert .decode (groupAt .decode t (i / 5)) = .error (.invalidCharacter (i % 5)) := by
    refine convert_group_invalid (length_groupAt hk) hmod ?_ fun j hj => ?_
    · rw [getElem?_groupAt hmod]
      exact hsplit.symm ▸ hbad
    · rw [getElem?_groupAt (i := .decode) (hj.trans hmod)]
      exact hgood _ (by simp only [Instr.groupIn]; omega)
  have h := convert_of_badGroup (i := .decode) ht hk hout hgroup
  exact h.trans (congrArg (Except.error ∘ Z85Error.invalidCharacter) hsplit)

/-- The first overflowing group is reported when every character before it is valid (R91 item 3). -/
theorem z85Decode_of_overflow {g : Nat} (hover : GroupOverflows t g)
    (hfit : ∀ g' < g, ¬ GroupOverflows t g') (hgood : ∀ j < 5 * g, t[j]?.map valid = some true) :
    z85Decode t = .error (.valueOverflow (5 * g)) := by
  have hg : g < t.length / 5 := by
    obtain ⟨_, _, _, _, _, hbytes, -⟩ := hover
    have hlen := congrArg List.length hbytes
    rw [List.length_take, List.length_drop, length_textGroup_bytes] at hlen
    omega
  obtain ⟨out, hout⟩ := exists_convert_groupsBefore_ok hg.le hgood hfit
  exact convert_of_badGroup (i := .decode) ht hg hout (convert_group_overflow hover)

/-- A text without a bad group decodes (R91 item 3). -/
theorem exists_z85Decode_ok (hvalid : ∀ c ∈ t, valid c = true) (hfit : ∀ g, ¬ GroupOverflows t g) :
    ∃ out, z85Decode t = .ok out := by
  have hgood : ∀ j < 5 * (t.length / 5), t[j]?.map valid = some true := fun j hj => by
    have hj' : j < t.length := hj.trans_le (Nat.mul_div_le _ _)
    rw [List.getElem?_eq_getElem hj', Option.map_some, hvalid _ (List.getElem_mem hj')]
  obtain ⟨out, hout⟩ := exists_convert_groupsBefore_ok le_rfl hgood (fun g _ => hfit g)
  exact ⟨out, (congrArg (convert .decode) (groupsBefore_all ht)).symm.trans hout⟩

end

/-- Settles O38: the groups before the first bad one decode, and the bad one decides. -/
theorem firstInvalidCharacterDecides : Obligations.FirstInvalidCharacterDecides := by
  intro t ht
  simp only [List.getElem?_map]
  exact ⟨fun _ hbad hgood hfit => z85Decode_of_invalid ht hbad hgood hfit,
    fun _ hover hfit hgood => z85Decode_of_overflow ht hover hfit hgood, exists_z85Decode_ok ht⟩

/-- Settles O41: the sentinel characters are no entries of `ENC_ROM`, and `0` is one. -/
theorem sentinelsAreRejected : Obligations.SentinelsAreRejected := by
  intro c hc
  have hbad : valid c = false := by
    revert c
    decide
  have hzero : valid 0x30 = true := by decide
  refine z85Decode_of_invalid (i := 4) (by simp) (congrArg some hbad) (fun j hj => ?_) (fun g hg => by omega)
  interval_cases j <;> exact congrArg some hzero

/-! ## The round trip on the machine -/

/-- An operation on a message that converts ends with the result in `OBUF` (R104, R106). -/
theorem operation_ends_ok {i : Instr} {s : State} {m out : List Byte} (hs : s.script = [])
    (hm : s.message = some m) (hc : convert i m = .ok out) :
    ∃ t, run (operationSteps i m) (start i s) = .next t ∧ t.op = i ∧ t.busy = false ∧ t.done = true ∧
      t.err = .noError ∧ t.olen.toNat = out.length ∧ t.obuf.readN 0 out.length = some out := by
  obtain ⟨t, hrun, hdone, ht⟩ := operation_ends (i := i) hs hm
  rw [wholeOperation_of_ok hc] at ht
  have hfit : out.length < 2 ^ (Config.AW + 1) := by
    rw [length_of_convert hc]
    exact groupOut_mul_lt hm le_rfl
  have hobuf : t.obuf = s.obuf.writeN 0 out := congrArg State.obuf ht
  have holen : t.olen = BitVec.ofNat (Config.AW + 1) out.length := congrArg State.olen ht
  refine ⟨t, hrun, congrArg State.op ht, congrArg State.busy ht, hdone, congrArg State.err ht, ?_, ?_⟩
  · rw [holen, BitVec.toNat_ofNat, Nat.mod_eq_of_lt hfit]
  · rw [hobuf, Memory.readN_writeN_same]

/-- The host's writes of a text to `IBUF` and of its length and command start the command on that text (R66). -/
theorem run_loadAndCommand {i : Instr} {s : State} {text : List Byte} (hb : s.busy = false)
    (hfit : text.length < 2 ^ Config.AW)
    (hs : s.script = scriptEvents [.load 0 (text.map BitVec.toNat)] ++ commandEvents i text.length) :
    ∃ u, run (text.length + 2) s = .next (start i u) ∧ u.script = [] ∧ u.message = some text := by
  have hbytes : (text.map BitVec.toNat).map (BitVec.ofNat 8) = text := by
    simp [Function.comp_def]
  have hload := run_loadEvents (a := 0) (xs := text.map BitVec.toNat) (rest := commandEvents i text.length)
    (by rw [List.length_map, Nat.zero_add]; exact hfit.le) hb (by rw [hs]; simp [scriptEvents, lineEvents])
  rw [List.length_map, hbytes] at hload
  have hcommand := run_commandEvents (i := i) (n := text.length) (rest := [])
    (s := { s with script := commandEvents i text.length, ibuf := s.ibuf.writeN 0 text })
    hb (List.append_nil _).symm
  refine ⟨_, (run_add hload).trans (hcommand.trans (exec_idle i hb)), rfl, ?_⟩
  have hlen : (BitVec.ofNat Config.AW text.length).toNat = text.length := Nat.mod_eq_of_lt hfit
  simp only [State.message, hlen, Memory.readN_writeN_same]

/-- Settles O55: each operation ends with its converted message in `OBUF`, and the decoder undoes the encoder. -/
theorem machineRoundTrips : Obligations.MachineRoundTrips := by
  intro s m hb hm hl hfit hs
  have hencode : z85Encode m = .ok (encodeGroups m) := z85Encode_eq_ok.mpr ⟨hl, rfl⟩
  have hlen := encodeGroups_length m hl
  obtain ⟨t, hrun, hop, htb, hdone, herr, holen, hout⟩ :=
    operation_ends_ok (i := .encode) (s := { s with script := [] }) rfl hm hencode
  obtain ⟨u, hstart, hus, hum⟩ := run_loadAndCommand (i := .decode) (text := encodeGroups m)
    (s := { t with
      script := scriptEvents [.load 0 ((encodeGroups m).map BitVec.toNat), .decode (encodeGroups m).length] })
    htb (hlen ▸ hfit) (by simp [scriptEvents, lineEvents])
  obtain ⟨t', hrun', hop', -, hdone', herr', holen', hout'⟩ :=
    operation_ends_ok (i := .decode) hus hum (z85Decode_of_z85Encode hencode)
  refine ⟨t, encodeGroups m, ?_, hop, hdone, herr, hlen, holen, holen ▸ hout, t', ?_, hop', hdone', herr',
    holen', holen' ▸ hout'⟩
  · rw [Nat.add_comm, run_commandWrite hs hb]
    exact hrun
  · rw [run_add hstart, hrun']

end Sys2Proof.Machine
end

section
/-! PROOFS. The statements of 42_sequencer_host.md about one event: SEQ's turn, what a running operation ignores and
answers, the start, the finish step, and the control-flow loop of (`BUSY`, `DONE`). -/

namespace Sys2Proof.Machine

/-! ## A turn of SEQ -/

theorem seqTurn_idle {s : State} (h : s.busy = false) : seqTurn s = .next s := by
  simp only [seqTurn, h, Bool.false_eq_true, if_false]

/-- A turn of SEQ in the script, or the empty script, is SEQ's turn on what is left of it (log 3). -/
theorem step_eq_seqTurn {s : State} {rest : List Event}
    (h : s.script = .seq :: rest ∨ (s.script = [] ∧ rest = [])) :
    step s = seqTurn { s with script := rest } := by
  rcases h with hs | ⟨hs, rfl⟩
  · exact step_of_script hs
  · rw [step_of_script_nil hs, ← hs]

/-- Settles O5: `BUSY` decides what SEQ's turn does. -/
theorem sequencerTurnAdvancesCommand : Obligations.SequencerTurnAdvancesCommand := by
  intro s rest hs
  rw [step_eq_seqTurn hs]
  exact ⟨fun hb => seqTurn_running (s := { s with script := rest }) hb,
    fun hb => seqTurn_idle (s := { s with script := rest }) hb⟩

/-! ## The host and a running operation -/

/-- Settles O11: each of the three writes asks first whether `BUSY = 1`. -/
theorem writesWhileBusyIgnored : Obligations.WritesWhileBusyIgnored := by
  intro s x rest hs hb hx
  rw [step_of_script hs]
  rcases hx with ⟨v, rfl⟩ | ⟨v, rfl⟩ | ⟨a, b, rfl⟩
  · simp only [perform, transact, regWrite, hb, if_true]
  · simp only [perform, transact, regWrite, hb, if_true]
  · simp only [perform, transact, hb, if_true]

/-- `STATUS` of a running operation is `BUSY` alone (R16, R26). -/
theorem Inv.statusWord_running {s : State} (h : Inv s) (hb : s.busy = true) : statusWord s = 1 := by
  apply BitVec.eq_of_toNat_eq
  rw [statusWord_toNat, hb, h.not_done hb, (h.running_clear hb).1]
  rfl

/-- Each cell of a block that is read holds its byte of the block. -/
theorem Memory.read_of_readN {m : Memory} {n a : Nat} {bs : List Byte} (h : m.readN 0 n = some bs) (ha : a < n) :
    ∃ b, bs[a]? = some b ∧ m.read a = some b := by
  obtain ⟨hlen, hcells⟩ := (Memory.readN_eq_some_iff m 0 n bs).mp h
  have hcell := hcells a ha
  rw [Nat.zero_add, List.getElem?_eq_getElem (hlen ▸ ha)] at hcell
  exact ⟨bs[a]'(hlen ▸ ha), List.getElem?_eq_getElem _, hcell⟩

/-- Settles O12: the invariant fixes the three registers and the cells that have been written. -/
theorem readsWhileRunning : Obligations.ReadsWhileRunning := by
  intro s rest h hb
  obtain ⟨-, holen, hidx⟩ := h.running_clear hb
  obtain ⟨m, out, hm, hout, hobuf⟩ := h.running_converted hb
  refine ⟨fun hs => ?_, fun hs => ?_, m, out, hm, hout, fun a ha hs => ?_⟩
  · have hstatus : statusWord { s with script := rest } = 1 := h.statusWord_running hb
    rw [step_of_script hs, perform_registerRead, regRead, hstatus]
    rfl
  · rcases hs with hs | hs
    · rw [step_of_script hs, perform_registerRead, regRead, holen]
      rfl
    · rw [step_of_script hs, perform_registerRead, regRead, hidx]
      rfl
  · obtain ⟨b, hb, hread⟩ := Memory.read_of_readN hobuf ha
    exact ⟨b, hb, (step_of_script hs).trans (perform_outputRead_written (s := { s with script := rest }) hread)⟩

/-- Settles O13: the read sees the write just made. -/
theorem inputWriteIsReadBack : Obligations.InputWriteIsReadBack := by
  intro s a v rest hs hb
  have hwrite := step_inputWrite hs hb
  have hread := (bufferReadsReturnCells.1
    { s with script := .host (.ri a) :: rest, ibuf := s.ibuf.write a.toNat v } a rest rfl)
  simp only [Memory.read_write_same] at hread
  exact ⟨_, (run_succ_of_next hwrite).trans ((run_one _).trans hread), rfl, rfl,
    fun a' => Memory.read_write s.ibuf a.toNat a' v⟩

/-- While an operation runs an event is a move of it, a poll, or a transaction that at most answers (R105, R111). -/
theorem Moved.running {e : Event} {s t : State} (hm : Moved e s t) (hb : s.busy = true) (hreset : e ≠ .reset) :
    (e = .seq ∧ exec s.op s = .next t) ∨ (e = .wait ∧ t = pollDone s) ∨
      ∃ x rs, e = .host x ∧ t = { s with replies := rs } := by
  cases hm with
  | started _ _ hb' | lengthWritten _ _ hb' | inputWritten _ _ _ hb' =>
    exact absurd (hb.symm.trans hb') (by decide)
  | sequenced he _ ht => exact .inl ⟨he, ht⟩
  | wasReset he => exact absurd he hreset
  | polled he ht => exact .inr (.inl ⟨he, ht⟩)
  | replied r he ht =>
    rcases he with ⟨x, he⟩ | ⟨a, he⟩ | ⟨a, he⟩ <;> exact .inr (.inr ⟨_, _, he, ht⟩)
  | nothing he ht =>
    rcases he with ⟨-, hb'⟩ | ⟨r, v, he, -⟩ | ⟨a, b, he, -⟩
    · exact absurd (hb.symm.trans hb') (by decide)
    · exact .inr (.inr ⟨_, s.replies, he, ht⟩)
    · exact .inr (.inr ⟨_, s.replies, he, ht⟩)

/-- Settles O49: a move of the running operation keeps its input, and no other event touches it. -/
theorem runningInputIsFrozen : Obligations.RunningInputIsFrozen := by
  intro s t hb hreset hstep
  rcases (step_eq_next hstep).running hb hreset with ⟨-, ht⟩ | ⟨-, ht⟩ | ⟨_, _, -, ht⟩
  · obtain ⟨hop, hlen, hibuf, -, -⟩ := exec_running_keeps (s := popEvent s) hb ht
    exact ⟨hop, hlen, hibuf⟩
  · obtain ⟨es, hes⟩ := pollDone_eq (popEvent s)
    rw [ht, hes]
    exact ⟨rfl, rfl, rfl⟩
  · rw [ht]
    exact ⟨rfl, rfl, rfl⟩

/-! ## Start and finish -/

/-- Settles O18: the word's parity is the command, the command's group size decides between the two starts. -/
theorem startFollowsRule : Obligations.StartFollowsRule := by
  intro v s hb
  refine ⟨?_, fun rest hs => acceptedCommandRuns s v rest hs hb⟩
  have hop : decodeCommand v = if v.toNat % 2 = 0 then .encode else .decode := by
    rcases Nat.mod_two_eq_zero_or_one v.toNat with hv | hv <;> simp [decodeCommand_eq, hv]
  have hgroup : (decodeCommand v).groupIn = if v.toNat % 2 = 0 then 4 else 5 := by
    rw [hop]
    split <;> rfl
  rw [exec_idle _ hb, ← hgroup, ← hop]
  split
  · rw [start_of_legal (lengthLegal_iff.mpr ‹_›)]
    rfl
  · rw [start_of_illegal (lengthLegal_eq_false_iff.mpr ‹_›)]
    rfl

/-- Settles O23: an operation with `LEN = 0` starts at its own end. -/
theorem finishStepPublishesLength : Obligations.FinishStepPublishesLength := by
  refine ⟨fun i s hb _ he => exec_finish i hb he, fun i s hb hlen => ?_⟩
  have hlegal : s.len.toNat % i.groupIn = 0 := by
    rw [hlen]
    exact Nat.zero_mod _
  refine ⟨start i s, exec_idle i hb, ?_⟩
  rw [start_of_legal (lengthLegal_iff.mpr hlegal)]
  exact ⟨rfl, rfl, exec_finish i rfl hlen.symm⟩

/-! ## The control-flow loop -/

/-- Only a text group fails, by a character or by its value (R117, R119). -/
theorem convert_group_error_kind {i : Instr} {bs : List Byte} {e : Z85Error} (hl : bs.length = i.groupIn)
    (h : convert i bs = .error e) : i = .decode ∧ (e.kind = .invalidCharacter ∨ e.kind = .valueOverflow) := by
  cases i with
  | encode =>
    obtain ⟨g, rfl⟩ := exists_rawGroup hl
    rw [convert_rawGroup] at h
    cases h
  | decode =>
    refine ⟨rfl, ?_⟩
    cases e with
    | invalidLength => exact absurd rfl (convert_group_error hl h).1
    | invalidCharacter idx => exact .inl rfl
    | valueOverflow idx => exact .inr rfl

/-- What a start makes of (`BUSY`, `DONE`) is the length's matter (R97, R102). -/
theorem start_controlFlow (i : Instr) (s : State) :
    ((start i s).busy = true ∧ (start i s).done = false ∧ (start i s).ipos = 0 ∧
        s.len.toNat % i.groupIn = 0) ∨
      ((start i s).busy = false ∧ (start i s).done = true ∧ (start i s).err = .invalidLength ∧
        s.len.toNat % i.groupIn ≠ 0) := by
  cases hl : lengthLegal i s.len with
  | true =>
    rw [start_of_legal hl]
    exact .inl ⟨rfl, rfl, rfl, lengthLegal_iff.mp hl⟩
  | false =>
    rw [start_of_illegal hl]
    exact .inr ⟨rfl, rfl, rfl, lengthLegal_eq_false_iff.mp hl⟩

/-- A move of the running operation converts a group, ends at a bad group, or ends at `IPOS = LEN` (R102). -/
theorem exec_controlFlow {s t : State} (h : Inv s) (hb : s.busy = true) (hstep : exec s.op s = .next t) :
    (s.ipos.toNat < s.len.toNat ∧ t.busy = true ∧ t.done = false ∧
        t.ipos.toNat = s.ipos.toNat + s.op.groupIn) ∨
      (s.ipos.toNat < s.len.toNat ∧ s.op = .decode ∧ t.busy = false ∧ t.done = true ∧
        (t.err = .invalidCharacter ∨ t.err = .valueOverflow)) ∨
      (s.ipos = s.len ∧ t.busy = false ∧ t.done = true ∧ t.err = .noError) := by
  rcases exec_eq_next hstep with ⟨hb', -⟩ | ⟨-, hend, rfl⟩ | ⟨-, hl, hg⟩
  · exact absurd (hb'.symm.trans hb) (by decide)
  · exact .inr (.inr ⟨hend, rfl, rfl, (h.running_clear hb).1⟩)
  · obtain ⟨bs, -, hbs, -, rfl⟩ := groupStep_eq_next.mp hg
    cases hc : convert s.op bs with
    | ok out =>
      rw [groupEffect_of_ok hc]
      have hin := (h.ipos_add_le hb hl).trans_lt (IAddr.toNat_lt s.len)
      exact .inl ⟨hl, hb, h.not_done hb, ipos_add_toNat hin⟩
    | error e =>
      obtain ⟨hop, hkind⟩ := convert_group_error_kind (Memory.readN_length hbs) hc
      rw [groupEffect_of_error hc]
      exact .inr (.inl ⟨hl, hop, rfl, rfl, hkind⟩)

/-- Settles O52: each kind of event has its own rule. -/
theorem controlFlow : Obligations.ControlFlow := by
  intro s t h hstep
  have hperform := (step_eq_perform s).symm.trans hstep
  refine ⟨fun he => ?_, fun hb hreset hstart => ?_, fun v hb he => ?_, fun hb hreset hseq => ?_,
    fun hb he => ?_⟩
  · rw [he] at hperform
    cases hperform
    exact ⟨rfl, rfl⟩
  · obtain ⟨-, hbusy, hdone, -⟩ := resultsAreSticky s t hb hreset hstart hstep
    exact ⟨hbusy, hdone⟩
  · rw [he, perform_commandWrite (s := popEvent s) v hb, exec_idle (s := popEvent s) _ hb] at hperform
    cases hperform
    exact start_controlFlow (decodeCommand v) (popEvent s)
  · rcases (step_eq_next hstep).running hb hreset with ⟨he, -⟩ | ⟨-, ht⟩ | ⟨_, _, -, ht⟩
    · exact absurd he hseq
    · obtain ⟨es, hes⟩ := pollDone_eq (popEvent s)
      rw [ht, hes]
      exact ⟨hb, h.not_done hb, rfl⟩
    · rw [ht]
      exact ⟨hb, h.not_done hb, rfl⟩
  · rw [he] at hperform
    have hexec := (seqTurn_running (s := popEvent s) hb).symm.trans hperform
    exact exec_controlFlow (s := popEvent s) (h.host _ _) hb hexec

end Sys2Proof.Machine
end

section
/-! PROOFS. The group steps of 42_sequencer_host.md R99, R100 on each kind of group: converted characters, converted
bytes, and the two errors of a text group (60_exceptions.md R117 to R120). -/

namespace Sys2Proof.Machine

/-! ## The group step of a running operation -/

section
variable {i : Instr} {s : State} {bs : List Byte} (h : Inv s) (hb : s.busy = true) (hop : s.op = i)
  (hl : s.ipos.toNat < s.len.toNat)
include h hb hop hl

/-- The next group lies inside the message (R31, R99). -/
theorem ipos_add_groupIn_le : s.ipos.toNat + i.groupIn ≤ s.len.toNat := hop ▸ h.ipos_add_le hb hl

/-- With the invariant a group that has been written is taken whole: no read or write leaves its buffer (R31). -/
theorem exec_writtenGroup (hbs : s.ibuf.readN s.ipos.toNat i.groupIn = some bs) :
    exec i s = .next (groupEffect i s bs) := by
  have hin := (ipos_add_groupIn_le h hb hop hl).trans (IAddr.toNat_lt s.len).le
  rw [exec_group i hb hl]
  exact groupStep_eq_next.mpr ⟨bs, hin, hbs, fun _ => (hop ▸ h.opos_add_lt hb hl).le, rfl⟩

/-- A good group advances both positions, its result is read back at `OPOS`, and every other cell of `OBUF` reads
as before (R99, R100). -/
theorem groupEffect_converts {out : List Byte} (hbs : bs.length = i.groupIn) (hc : convert i bs = .ok out) :
    (groupEffect i s bs).ipos.toNat = s.ipos.toNat + i.groupIn ∧
      (groupEffect i s bs).opos.toNat = s.opos.toNat + i.groupOut ∧
      (groupEffect i s bs).obuf.readN s.opos.toNat i.groupOut = some out ∧
      ∀ a, a < s.opos.toNat ∨ s.opos.toNat + i.groupOut ≤ a →
        (groupEffect i s bs).obuf.read a = s.obuf.read a := by
  have hin := (ipos_add_groupIn_le h hb hop hl).trans_lt (IAddr.toNat_lt s.len)
  have hout : s.opos.toNat + i.groupOut < 131072 := hop ▸ h.opos_add_lt hb hl
  rw [groupEffect_of_ok hc]
  refine ⟨ipos_add_toNat hin, opos_add_toNat hout, ?_, fun a ha => ?_⟩
  · rw [← length_of_convert_group hbs hc]
    exact Memory.readN_writeN_same _ _ _
  · rw [← length_of_convert_group hbs hc] at ha
    exact (Memory.read_writeN _ _ _ _).trans (if_neg (by omega))

end

/-! ## Encoding a group -/

/-- The digit of R71 at a divisor, from the group's bytes. -/
theorem digitAt_groupValue (b0 b1 b2 b3 : Byte) (divisor : Nat) :
    digitAt (groupValue ⟨b0, b1, b2, b3⟩) divisor = Fin.ofNat 85 (bytesValue b0 b1 b2 b3 / divisor) := by
  apply Fin.ext
  rw [digitAt_val, groupValue_toNat]
  rfl

/-- The characters of a raw group, by its bytes' value (R71, R72). -/
theorem encBlock_bytes (b0 b1 b2 b3 : Byte) :
    (encBlock ⟨b0, b1, b2, b3⟩).bytes =
      [encRom (Fin.ofNat 85 (bytesValue b0 b1 b2 b3 / 52200625)),
        encRom (Fin.ofNat 85 (bytesValue b0 b1 b2 b3 / 614125)),
        encRom (Fin.ofNat 85 (bytesValue b0 b1 b2 b3 / 7225)),
        encRom (Fin.ofNat 85 (bytesValue b0 b1 b2 b3 / 85)),
        encRom (Fin.ofNat 85 (bytesValue b0 b1 b2 b3))] := by
  simp only [encBlock_eq, digitAt_groupValue, Nat.div_one, TextGroup.bytes]

/-- Settles O19: every raw group is good, and `ENC_BLOCK` gives its characters. -/
theorem encodeGroupStepConverts : Obligations.EncodeGroupStepConverts := by
  intro s b0 b1 b2 b3 h hb hop hl hread
  have hc := convert_rawGroup ⟨b0, b1, b2, b3⟩
  obtain ⟨hipos, hopos, hout, hkept⟩ := groupEffect_converts h hb hop hl (length_rawGroup_bytes _) hc
  rw [encBlock_bytes] at hout
  have hexec := exec_writtenGroup h hb hop hl (bs := RawGroup.bytes ⟨b0, b1, b2, b3⟩) hread
  refine ⟨ipos_add_groupIn_le h hb hop hl, _, hexec, ?_, hipos, hopos, hout, hkept⟩
  rw [groupEffect_of_ok hc]
  rfl

/-! ## Decoding a group -/

/-- The bytes of a 32-bit value, most significant first (R85). -/
theorem valueBytes_bytes {n : Nat} (h : n < 2 ^ 32) :
    (valueBytes (BitVec.ofNat 32 n)).bytes =
      [BitVec.ofNat 8 (n / 16777216), BitVec.ofNat 8 (n / 65536), BitVec.ofNat 8 (n / 256),
        BitVec.ofNat 8 n] := by
  have hbyte (x : Nat) : BitVec.ofNat 8 (x % 256) = BitVec.ofNat 8 x :=
    BitVec.eq_of_toNat_eq (by rw [BitVec.toNat_ofNat, BitVec.toNat_ofNat, Nat.mod_mod])
  have hn : (BitVec.ofNat 32 n).toNat = n := Nat.mod_eq_of_lt h
  simp only [RawGroup.bytes, valueBytes, hn, hbyte, Nat.pow_zero, Nat.div_one]
  rfl

/-- A text group of a value below `2^32` converts to the bytes of its value (R83 to R86). -/
theorem convert_textOfDigits {d0 d1 d2 d3 d4 : Fin 85} (h : digitsValue d0 d1 d2 d3 d4 < 2 ^ 32) :
    convert .decode (textOfDigits d0 d1 d2 d3 d4).bytes =
      .ok (valueBytes (BitVec.ofNat 32 (digitsValue d0 d1 d2 d3 d4))).bytes := by
  rw [convert_textGroup, decBlock_textOfDigits, if_neg (Nat.not_le_of_lt h)]
  rfl

/-- Settles O20: the group is good, and its value is what the accumulator holds. -/
theorem decodeGroupStepConverts : Obligations.DecodeGroupStepConverts := by
  intro s d0 d1 d2 d3 d4 h hb hop hl hread hfit
  have hc := convert_textOfDigits hfit
  obtain ⟨hipos, hopos, hout, hkept⟩ := groupEffect_converts h hb hop hl (length_textGroup_bytes _) hc
  rw [valueBytes_bytes hfit] at hout
  have hexec := exec_writtenGroup h hb hop hl (bs := (textOfDigits d0 d1 d2 d3 d4).bytes) hread
  refine ⟨_, hexec, ?_, hipos, hopos, ?_, hout, hkept⟩
  · rw [groupEffect_of_ok hc]
  · rw [← accumulate_textOfDigits, ← accAfter_textOfDigits]
    exact congrArg (fun t => t.acc.toNat) (groupEffect_of_ok hc)

/-! ## A failing group -/

/-- A text group with an invalid character leaves `ACC` cleared (R100). -/
theorem groupAcc_of_invalid {c : TextGroup} {k : Nat} {acc : Acc}
    (h : convert .decode c.bytes = .error (.invalidCharacter k)) : groupAcc .decode c.bytes acc = 0 := by
  cases hf : firstInvalid c with
  | some j => simp [groupAcc, TextGroup.bytes, accAfter, hf]
  | none =>
    obtain ⟨d0, d1, d2, d3, d4, rfl⟩ := exists_digits hf
    rw [convert_textGroup, decBlock_textOfDigits] at h
    split at h <;> cases h

/-- Settles O21: the group's error is at its first invalid character, inside the message. -/
theorem invalidCharacterEndsOperation : Obligations.InvalidCharacterEndsOperation := by
  intro s cs k h hb hop hl hread hbad hgood
  simp only [List.getElem?_map] at hbad hgood
  have hlen := Memory.readN_length hread
  have hk : k < 5 := by
    by_contra hk
    rw [List.getElem?_eq_none (by omega)] at hbad
    cases hbad
  have hc := convert_group_invalid hlen hk hbad hgood
  obtain ⟨c, rfl⟩ := exists_textGroup hlen
  have hexec := exec_writtenGroup h hb hop hl hread
  rw [groupEffect_of_error hc, groupAcc_of_invalid hc] at hexec
  refine ⟨_, hexec, ?_, rfl⟩
  have hin := (ipos_add_groupIn_le h hb hop hl).trans_lt (IAddr.toNat_lt s.len)
  exact Nat.mod_eq_of_lt ((Nat.add_lt_add_left hk _).trans hin)

/-- Settles O22: the group's error is at its own start, and the accumulator holds the value. -/
theorem valueOverflowEndsOperation : Obligations.ValueOverflowEndsOperation := by
  intro s d0 d1 d2 d3 d4 h hb hop hl hread hover
  have hc : convert .decode (textOfDigits d0 d1 d2 d3 d4).bytes = .error (.valueOverflow 0) := by
    rw [convert_textGroup, (decBlock_eq_valueOverflow_iff ..).mpr hover]
    rfl
  have hacc : groupAcc .decode (textOfDigits d0 d1 d2 d3 d4).bytes s.acc =
      BitVec.ofNat 33 (digitsValue d0 d1 d2 d3 d4) := by
    rw [← accumulate_textOfDigits, BitVec.ofNat_toNat, BitVec.setWidth_eq]
    exact accAfter_textOfDigits ..
  have hidx : BitVec.ofNat Config.AW (s.ipos.toNat + (Z85Error.valueOverflow 0).index) = s.ipos := by
    rw [Z85Error.index, Nat.add_zero, BitVec.ofNat_toNat, BitVec.setWidth_eq]
  have hexec := exec_writtenGroup h hb hop hl (bs := (textOfDigits d0 d1 d2 d3 d4).bytes) hread
  rwa [groupEffect_of_error hc, hacc, hidx] at hexec

end Sys2Proof.Machine
end

section
/-! PROOFS. Whole runs of 42_sequencer_host.md: an operation that SEQ alone runs (R104, R107), and one that any events
but reset come between (R106). -/

namespace Sys2Proof.Machine

/-! ## An operation that SEQ runs alone -/

/-- The whole-operation form does not look at the host's script and replies. -/
theorem wholeOperation_host (i : Instr) (m : List Byte) (s : State) (es : List Event) (rs : List Reply) :
    wholeOperation i m { s with script := es, replies := rs } =
      { wholeOperation i m s with script := es, replies := rs } := by
  cases hc : convert i m with
  | ok out => rw [wholeOperation_of_ok hc, wholeOperation_of_ok hc]
  | error e => rw [wholeOperation_of_error hc, wholeOperation_of_error hc]; rfl

theorem wholeOperation_host_self (i : Instr) (m : List Byte) (s : State) :
    { wholeOperation i m s with script := s.script, replies := s.replies } = wholeOperation i m s :=
  (wholeOperation_host i m s s.script s.replies).symm

/-- Settles O46: the write starts the command, and SEQ takes the steps of R104. -/
theorem operationAgreesWithFunctions : Obligations.OperationAgreesWithFunctions := by
  intro s v m hb hm hs
  have hm₀ : State.message { s with script := [] } = some m := hm
  constructor
  · obtain ⟨t, hrun, hdone, ht⟩ := operation_ends (i := decodeCommand v) rfl hm₀
    refine ⟨t, by rw [Nat.add_comm, run_commandWrite hs hb, hrun], hdone, ?_⟩
    rw [wholeOperation_host] at ht
    have hscript := congrArg (fun u : State => { u with script := s.script }) ht
    exact hscript.trans (wholeOperation_host_self _ m s)
  · intro k hk hsteps
    obtain ⟨j, rfl⟩ := Nat.exists_eq_add_of_le' hk
    rw [run_commandWrite hs hb]
    exact operation_running rfl hm₀ hsteps

/-- Settles O48: each step ends the operation or takes one group of those left. -/
theorem runningOperationEnds : Obligations.RunningOperationEnds := by
  intro s m h hb hm hs
  induction hleft : (s.len.toNat - s.ipos.toNat) / s.op.groupIn using Nat.strong_induction_on generalizing s with
  | _ left ih =>
    obtain ⟨t, hexec, ht⟩ := exec_running_progress h hb hm
    have hstep : step s = .next t := (step_of_script_nil hs).trans ((seqTurn_running hb).trans hexec)
    rcases ht with ⟨htb, htd⟩ | ⟨htb, hl, hipos⟩
    · exact ⟨1, t, Nat.le_add_left 1 left, (run_one s).trans hstep, htd, htb⟩
    · obtain ⟨hop, hlen, hibuf, hscript, -⟩ := exec_running_keeps hb hexec
      have hgroup : s.op.groupIn ≤ s.len.toNat - s.ipos.toNat := Nat.le_sub_of_add_le' (h.ipos_add_le hb hl)
      have hless : left = (t.len.toNat - t.ipos.toNat) / t.op.groupIn + 1 := by
        rw [hop, hlen, hipos, Nat.sub_add_eq, ← hleft, Nat.div_eq_sub_div (groupIn_pos _) hgroup]
      have htm : t.message = some m := by rw [State.message, hlen, hibuf]; exact hm
      obtain ⟨n, u, hn, hrun, hu⟩ :=
        ih _ (hless ▸ Nat.lt_succ_self _) t (h.exec hb hexec) htb htm (hscript.trans hs) rfl
      exact ⟨n + 1, u, by omega, (run_succ_of_next hstep).trans hrun, hu⟩

/-! ## The state between two groups, whatever the host does -/

section
variable {i : Instr} {s : State} {m : List Byte}

/-- The operation has ended in the state of the whole-operation form, but for the internal registers and what is
the host's (R106). -/
def Ended (i : Instr) (s : State) (m : List Byte) (t : State) : Prop :=
  t.done = true ∧
    { t with ipos := s.ipos, opos := s.opos, acc := s.acc, script := s.script, replies := s.replies } =
      wholeOperation i m s

/-- After groups that convert, the operation takes one more group or ends (R99 to R101). -/
theorem exec_afterGroups_cases {k : Nat} {out : List Byte} (acc : Acc) (hm : s.message = some m)
    (hl : m.length % i.groupIn = 0) (hk : k ≤ m.length / i.groupIn)
    (hout : convert i (groupsBefore i m k) = .ok out) :
    ∃ t, exec i (afterGroups i s k out acc) = .next t ∧ t.script = s.script ∧
      ((k < m.length / i.groupIn ∧ ∃ out' acc', convert i (groupsBefore i m (k + 1)) = .ok out' ∧
          t = afterGroups i s (k + 1) out' acc') ∨
        Ended i s m t) := by
  rcases hk.lt_or_eq with hlt | rfl
  · refine ⟨_, exec_afterGroups out acc hm hlt, ?_⟩
    cases hc : convert i (groupAt i m k) with
    | ok out' =>
      rw [groupEffect_afterGroups out acc hm hk (length_of_convert_groupsBefore hk hout) hc]
      exact ⟨rfl, .inl ⟨hlt, _, _, by rw [groupsBefore_succ, convert_append_ok hout hc], rfl⟩⟩
    | error e =>
      obtain ⟨hne, hidx⟩ := convert_group_error (length_groupAt hlt) hc
      have hindex : (e.shift (i.groupIn * k)).index = i.groupIn * k + e.index := Z85Error.index_shift hne
      have hgroup : (i.groupIn * k + e.index) / i.groupIn = k := by
        rw [Nat.mul_add_div (groupIn_pos i), Nat.div_eq_of_lt hidx, Nat.add_zero]
      rw [groupEffect_of_error hc, afterGroups_ipos_toNat out acc hm hk]
      refine ⟨rfl, .inr ⟨rfl, ?_⟩⟩
      rw [wholeOperation_of_error (convert_of_badGroup hl hlt hout hc), hindex, Z85Error.kind_shift,
        obufAfterFailure_eq (hgroup.symm ▸ hout)]
      rfl
  · have hc := hout
    rw [groupsBefore_all hl] at hc
    refine ⟨_, exec_finish i rfl (afterGroups_ipos_end out acc hm hl), rfl, .inr ⟨rfl, ?_⟩⟩
    rw [wholeOperation_of_ok hc, length_of_convert hc]
    rfl

/-- The operation on `m` that `s` started has taken `k` groups, and of the events still to come only turns of SEQ
are not among `es`. -/
structure Underway (i : Instr) (s : State) (m : List Byte) (es : List Event) (k : Nat) (u : State) : Prop where
  legal : m.length % i.groupIn = 0
  groups : k ≤ m.length / i.groupIn
  events : ∀ e ∈ u.script, e ∈ es ∨ e = .seq
  state : ∃ out acc, convert i (groupsBefore i m k) = .ok out ∧
    u = afterGroups i { s with script := u.script, replies := u.replies } k out acc

/-- The number of events before SEQ's next turn: `WAIT` gives SEQ the turn after its poll (log 3, 8). -/
def eventsBeforeSeq : List Event → Nat
  | [] | .seq :: _ => 0
  | .wait :: _ => 1
  | .host _ :: es | .reset :: es => eventsBeforeSeq es + 1

variable {es : List Event} {k : Nat} {u : State}

/-- Between two groups `BUSY` is the operation's, and `IBUF` is as it was at the start (R105). -/
theorem Underway.running (hu : Underway i s m es k u) :
    u.op = i ∧ u.busy = true ∧ u.done = false ∧ u.ibuf = s.ibuf := by
  obtain ⟨out, acc, -, hstate⟩ := hu.state
  rw [hstate]
  exact ⟨rfl, rfl, rfl, rfl⟩

/-- The next event, if it is not SEQ's turn, is the script's first. -/
theorem script_of_nextEvent {e : Event} (h : nextEvent u = e) (he : e ≠ .seq) :
    u.script = e :: u.script.tail := by
  unfold nextEvent at h
  split at h
  · exact absurd h.symm he
  · simp [*]

/-- The next event is one of the operation's, or SEQ's turn. -/
theorem Underway.nextEvent_mem (hu : Underway i s m es k u) : nextEvent u ∈ es ∨ nextEvent u = .seq := by
  unfold nextEvent
  split
  · exact .inr rfl
  · exact hu.events _ (by simp [*])

/-- The host's part of the state does not matter to what has been converted. -/
theorem Underway.host (hu : Underway i s m es k u) {es' : List Event} (rs : List Reply)
    (hes : ∀ e ∈ es', e ∈ es ∨ e = .seq) : Underway i s m es k { u with script := es', replies := rs } where
  legal := hu.legal
  groups := hu.groups
  events := hes
  state := by
    obtain ⟨out, acc, hout, hstate⟩ := hu.state
    exact ⟨out, acc, hout, congrArg (fun u : State => { u with script := es', replies := rs }) hstate⟩

theorem Underway.popEvent (hu : Underway i s m es k u) : Underway i s m es k (popEvent u) :=
  hu.host u.replies fun e he => hu.events e (List.mem_of_mem_tail he)

/-- A move of the operation takes one more group or ends it, whatever the host's part of the state (R106). -/
theorem Underway.exec (hu : Underway i s m es k u) (hm : s.message = some m) :
    ∃ t, exec u.op u = .next t ∧ (Underway i s m es (k + 1) t ∨ Ended i s m t) := by
  obtain ⟨out, acc, hout, hstate⟩ := hu.state
  obtain ⟨t, hexec, hscript, ht⟩ := exec_afterGroups_cases
    (s := { s with script := u.script, replies := u.replies }) acc hm hu.legal hu.groups hout
  refine ⟨t, by rw [hu.running.1, hstate]; exact hexec, ?_⟩
  rcases ht with ⟨hlt, out', acc', hout', rfl⟩ | ⟨hdone, ht⟩
  · exact .inl ⟨hu.legal, hlt, hscript ▸ hu.events, out', acc', hout', rfl⟩
  · rw [wholeOperation_host] at ht
    have hhost := congrArg (fun u : State => { u with script := s.script, replies := s.replies }) ht
    exact .inr ⟨hdone, hhost.trans (wholeOperation_host_self i m s)⟩

/-- A step of the operation takes one more group, ends it, or brings SEQ's next turn nearer. -/
theorem Underway.step (hu : Underway i s m es k u) (hm : s.message = some m)
    (hreset : .reset ∉ es) {t : State} (hstep : step u = .next t) :
    (Underway i s m es k t ∧ eventsBeforeSeq t.script < eventsBeforeSeq u.script) ∨
      Underway i s m es (k + 1) t ∨ Ended i s m t := by
  obtain ⟨-, hb, hd, -⟩ := hu.running
  have hnext : nextEvent u ≠ .reset := fun he => by
    rcases hu.nextEvent_mem with hmem | hseq
    · exact hreset (he ▸ hmem)
    · cases he.symm.trans hseq
  rcases (step_eq_next hstep).running hb hnext with ⟨-, hexec⟩ | ⟨he, rfl⟩ | ⟨x, rs, he, rfl⟩
  · obtain ⟨t', hexec', ht⟩ := hu.popEvent.exec hm
    cases hexec.symm.trans hexec'
    exact .inr ht
  · have hscript := script_of_nextEvent he (by decide)
    rw [pollDone_of_not_done (s := Machine.popEvent u) hd]
    refine .inl ⟨hu.host _ fun e hmem => ?_, by rw [hscript]; exact Nat.zero_lt_one⟩
    rcases List.mem_cons.mp hmem with rfl | hmem
    · exact .inr rfl
    · exact hu.events e (hscript ▸ hmem)
  · have hscript := script_of_nextEvent he (by simp)
    refine .inl ⟨hu.popEvent.host rs hu.popEvent.events, ?_⟩
    rw [hscript]
    exact Nat.lt_succ_self _

/-- A step of the operation stops only in a read of a buffer cell without a value. -/
theorem Underway.step_stops (hu : Underway i s m es k u) (hm : s.message = some m)
    (hstop : ∀ t, Machine.step u ≠ .next t) :
    (∃ a, .host (.ri a) ∈ es ∧ s.ibuf.read a.toNat = none ∧
        Machine.step u = .refused (.unwrittenIbuf a.toNat)) ∨
      ∃ a, .host (.rb a) ∈ es ∧ Machine.step u = .refused (.unwrittenObuf a.toNat) := by
  obtain ⟨-, -, -, hibuf⟩ := hu.running
  have hmem {x : Txn} (he : nextEvent u = .host x) : .host x ∈ es := by
    rcases hu.nextEvent_mem with hmem | hseq
    · exact he ▸ hmem
    · cases he.symm.trans hseq
  rw [step_eq_perform] at hstop ⊢
  rcases perform_stops hstop with ⟨a, he, hread, hr⟩ | ⟨a, he, -, hr⟩ | ⟨-, -, hr⟩
  · exact .inl ⟨a, hmem he, hibuf ▸ hread, hr⟩
  · exact .inr ⟨a, hmem he, hr⟩
  · obtain ⟨t, hexec, -⟩ := hu.popEvent.exec hm
    exact absurd (hr.trans hexec) (hstop t)

/-- From `u` a state with `DONE = 1` is reached, unless the host reads a cell without a value (log 6). -/
def EndsOrRefused (s : State) (es : List Event) (u : State) : Prop :=
  ∃ k, (∃ t, run k u = .next t ∧ t.done = true) ∨
    (∃ a, .host (.ri a) ∈ es ∧ s.ibuf.read a.toNat = none ∧ run k u = .refused (.unwrittenIbuf a.toNat)) ∨
    ∃ a, .host (.rb a) ∈ es ∧ run k u = .refused (.unwrittenObuf a.toNat)

theorem EndsOrRefused.of_step {t : State} (hstep : step u = .next t) (h : EndsOrRefused s es t) :
    EndsOrRefused s es u := by
  obtain ⟨k, h⟩ := h
  exact ⟨k + 1, by simpa only [run_succ_of_next hstep] using h⟩

theorem Ended.endsOrRefused (h : Ended i s m u) : EndsOrRefused s es u :=
  ⟨0, .inl ⟨u, rfl, h.1⟩⟩

/-- The groups left, and between two of them the events before SEQ's turn, run out (R107). -/
theorem Underway.endsOrRefused (hm : s.message = some m) (hreset : .reset ∉ es)
    {k : Nat} {u : State} (hu : Underway i s m es k u) : EndsOrRefused s es u := by
  by_cases hstop : ∀ t, Machine.step u ≠ .next t
  · refine ⟨1, .inr ?_⟩
    rw [run_one]
    exact hu.step_stops hm hstop
  · obtain ⟨t, hstep⟩ := not_forall_not.mp hstop
    refine .of_step hstep ?_
    rcases hu.step hm hreset hstep with ⟨ht, hless⟩ | ht | ht
    · exact ht.endsOrRefused hm hreset
    · have hless : m.length / i.groupIn - (k + 1) < m.length / i.groupIn - k :=
        Nat.sub_succ_lt_self _ _ ht.groups
      exact ht.endsOrRefused hm hreset
    · exact ht.endsOrRefused
termination_by (m.length / i.groupIn - k, eventsBeforeSeq u.script)

/-- The first state with `DONE = 1` is the one the operation ends in (R106). -/
theorem ended_of_first_done (hm : s.message = some m) (hreset : .reset ∉ es)
    {j : Nat} {t : State} (hu : (∃ k, Underway i s m es k u) ∨ Ended i s m u) (hrun : run j u = .next t)
    (hdone : t.done = true) (hfirst : ∀ n < j, ∀ w, run n u = .next w → w.done = false) : Ended i s m t := by
  induction j generalizing u with
  | zero =>
    cases hrun
    rcases hu with ⟨k, hu⟩ | hu
    · exact absurd (hu.running.2.2.1.symm.trans hdone) (by decide)
    · exact hu
  | succ j ih =>
    obtain ⟨w, hstep, hrun'⟩ := run_prefix_next (j := 1) (Nat.add_comm j 1 ▸ hrun)
    rw [run_one] at hstep
    have hfirst' : ∀ n < j, ∀ x, run n w = .next x → x.done = false := fun n hn x hx =>
      hfirst (n + 1) (Nat.succ_lt_succ hn) x ((run_succ_of_next hstep).trans hx)
    refine ih ?_ hrun' hfirst'
    rcases hu with ⟨k, hu⟩ | hu
    · rcases hu.step hm hreset hstep with ⟨hw, -⟩ | hw | hw
      · exact .inl ⟨k, hw⟩
      · exact .inl ⟨k + 1, hw⟩
      · exact .inr hw
    · exact absurd (hu.1.symm.trans (hfirst 0 j.succ_pos u rfl)) (by decide)

/-- A start leaves the operation before its first group, or ended if the length is illegal (R97, R116). -/
theorem underway_or_ended_start (hm : s.message = some m) :
    Underway i s m es 0 (start i { s with script := es }) ∨ Ended i s m (start i { s with script := es }) := by
  have hlen := length_of_message hm
  by_cases hl : m.length % i.groupIn = 0
  · rw [start_eq_afterGroups (s := { s with script := es }) (hlen ▸ hl)]
    exact .inl
      { legal := hl
        groups := Nat.zero_le _
        events := fun _ => .inl
        state := ⟨[], 0, by rw [groupsBefore_zero, convert_nil], rfl⟩ }
  · rw [start_of_illegal (s := { s with script := es }) (lengthLegal_eq_false_iff.mpr (hlen ▸ hl))]
    refine .inr ⟨rfl, ?_⟩
    simp only [wholeOperation, convert_of_illegal hl]
    rfl

end

/-- Settles O47: after the start the operation stays under way until it ends. -/
theorem anyInterleavingAgreesWithFunctions : Obligations.AnyInterleavingAgreesWithFunctions := by
  intro s v m es hb hm hs hreset
  have hstep : step s = .next (start (decodeCommand v) { s with script := es }) :=
    (acceptedCommandRuns s v es hs hb).trans (exec_idle _ (s := { s with script := es }) hb)
  have hu := underway_or_ended_start (i := decodeCommand v) (es := es) hm
  constructor
  · obtain ⟨k, hk⟩ : EndsOrRefused s es _ := hu.elim (·.endsOrRefused hm hreset) (·.endsOrRefused)
    exact ⟨k, by simpa only [run_succ_of_next hstep] using hk⟩
  · intro t k hrun hdone hfirst
    have hfirst' : ∀ n < k, ∀ w,
        run n (start (decodeCommand v) { s with script := es }) = .next w → w.done = false :=
      fun n hn w hw => hfirst (n + 1) w (Nat.le_add_left 1 n) hn ((run_succ_of_next hstep).trans hw)
    exact (ended_of_first_done hm hreset (hu.imp_left fun hu => ⟨0, hu⟩)
      ((run_succ_of_next hstep).symm.trans hrun) hdone hfirst').2

end Sys2Proof.Machine
end

section
/-! PROOFS. How a step can stop in a state with the invariant (60_exceptions.md R128): only in a read of a buffer cell
without a value (20_memory.md R45). -/

namespace Sys2Proof.Machine

/-- The refusal names a cell inside `IBUF` or `OBUF` that has no value (R45; log 6). -/
def NamesUnwrittenCell (s : State) (r : Refusal) : Prop :=
  (∃ a, r = .unwrittenIbuf a ∧ a < 2 ^ Config.AW ∧ s.ibuf.read a = none) ∨
    ∃ a, r = .unwrittenObuf a ∧ a < 2 ^ (Config.AW + 1) ∧ s.obuf.read a = none

/-- With the invariant a move of the running operation goes on, or is refused for a cell of its next group: `IPOS`
is not past `LEN`, and no group leaves its buffer (R31, R98). -/
theorem Inv.exec_next_or_refused {s : State} (h : Inv s) (hb : s.busy = true) :
    (∃ t, Machine.exec s.op s = .next t) ∨
      ∃ r, Machine.exec s.op s = .refused r ∧ NamesUnwrittenCell s r := by
  rcases (h.running_ipos hb).2.eq_or_lt with hend | hl
  · exact .inl ⟨_, exec_finish s.op hb (BitVec.eq_of_toNat_eq hend)⟩
  · cases hread : s.ibuf.readN s.ipos.toNat s.op.groupIn with
    | some bs => exact .inl ⟨_, exec_writtenGroup h hb rfl hl hread⟩
    | none =>
      have hin : s.ipos.toNat + s.op.groupIn ≤ Config.ibufSize :=
        (h.ipos_add_le hb hl).trans (IAddr.toNat_lt s.len).le
      obtain ⟨k, hk, -, hnone, hstep⟩ := groupStep_unwritten hin hread
      exact .inr ⟨_, (exec_group s.op hb hl).trans hstep,
        .inl ⟨_, rfl, (Nat.add_lt_add_left hk _).trans_le hin, hnone⟩⟩

/-- With the invariant an event goes on, or is refused for a cell without a value. -/
theorem Inv.perform_next_or_refused {s : State} (h : Inv s) (e : Event) :
    (∃ t, perform e s = .next t) ∨ ∃ r, perform e s = .refused r ∧ NamesUnwrittenCell s r := by
  refine or_iff_not_imp_left.mpr fun hstop => ?_
  rcases perform_stops (not_exists.mp hstop) with ⟨a, -, hnone, hr⟩ | ⟨a, -, hnone, hr⟩ | ⟨-, hb, hexec⟩
  · exact ⟨_, hr, .inl ⟨_, rfl, a.isLt, hnone⟩⟩
  · exact ⟨_, hr, .inr ⟨_, rfl, a.isLt, hnone⟩⟩
  · rw [hexec] at hstop ⊢
    exact (h.exec_next_or_refused hb).resolve_left hstop

/-- Settles O45: the step is its event's, and taking the event off the script leaves the invariant and both buffers. -/
theorem stepNeverFaults : Obligations.StepNeverFaults := by
  intro s h
  have hstep : (∃ t, step s = .next t) ∨ ∃ r, step s = .refused r ∧ NamesUnwrittenCell s r :=
    step_eq_perform s ▸ (h.host s.script.tail s.replies).perform_next_or_refused (nextEvent s)
  rcases hstep with ⟨t, ht⟩ | ⟨r, hr, hcell⟩
  · exact ⟨fun f hf => (by cases ht.symm.trans hf), fun r hr => (by cases ht.symm.trans hr)⟩
  · refine ⟨fun f hf => (by cases hr.symm.trans hf), fun r' hr' => ?_⟩
    cases hr.symm.trans hr'
    exact hcell

end Sys2Proof.Machine
end

section
/-! PROOFS. The reset event (70_reset_and_hazards.md R135, R136). -/

namespace Sys2Proof.Machine

/-- The reset event goes on at all times, `BUSY` or not: of the state before it only the script and the replies
stay (R135, R136; log 15). -/
theorem perform_reset (s : State) :
    perform .reset s = .next { State.reset with script := s.script, replies := s.replies } := rfl

/-- Settles O8: the step performs the reset event, with that event off the script. -/
theorem resetEventClearsEverything : Obligations.ResetEventClearsEverything := by
  intro s rest hs
  exact (step_of_script hs).trans (perform_reset { s with script := rest })

end Sys2Proof.Machine
end
